-- ==== Sys2Proof/Word.lean ====
section
/-! DEFINITION. The word types of the block (spec/00_scope.md R10, R11): bytes, byte sequences, and the
unsigned integers of 16, 24 and 32 bits.

There is no signed quantity anywhere in the block (R10); all arithmetic on these types is modulo 2^N, as
`BitVec` has it. Counts, lengths and offsets are `Nat`, since no rule ever wraps one (10_state.md R22). -/

namespace Sys2Proof

/-- A byte, 0..255 (R10). -/
abbrev Byte := BitVec 8

/-- A byte sequence `b` with `len(b) = b.length` (R11). -/
abbrev Bytes := List Byte

/-- `u16`: the CRC16 register and result, `serial` (R10, R21). -/
abbrev U16 := BitVec 16

/-- The 24-bit Base64 group `t` (R21). -/
abbrev U24 := BitVec 24

/-- `u32`: the CRC32 register and result, `sync_flag`, `msg_len` (R10, R21). -/
abbrev U32 := BitVec 32

end Sys2Proof
end

