-- ==== Sys2Proof/Config.lean ====
section
/-! DEFINITION. The constants of spec/00_scope.md R6, the parameters of R7 and R8, and the one free value of the model.

The parameters are a record of plain data which State holds and no operation writes (10_state.md R24): R8 asks that a model
"takes them as arguments", so a statement about every state is a statement about every value of them, both `CRC16_ELSE_SHIFT`
variants among them. -/

namespace Sys2Proof

/-- `CRC16_ELSE_SHIFT`: the direction of the CRC16 round's shift when the top bit is clear (00_scope.md R8, 40_crc.md R91,
90_conflicts.md C1). -/
inductive ElseShift where
  | right   -- the source's own text, the default
  | left    -- the named alternative, CRC-16/CCITT-FALSE
deriving DecidableEq, Repr

/-- `HEADER_SIZE = 20` (R6). -/
def Config.headerSize : Nat := 20

/-- The configuration parameters "fixed before reset" (00_scope.md R7, R8; 10_state.md R24).

`OVERFLOW_POLICY` is no field: the spec fixes it to `REJECT` (R8, D7) and no rule implements another. -/
structure Config where
  /-- `ACC_CAPACITY`, written `C`: the accumulator's fixed capacity in bytes (R8). -/
  capacity : Nat
  /-- `GARBAGE_CEILING` (R7). -/
  garbageCeiling : Nat
  /-- `MSG_LEN_MAX` (R7). -/
  msgLenMax : Nat
  /-- `MSG_LEN_MIN` (R7): `HEADER_SIZE`, the 20 that R124 and R129 print, by default. -/
  msgLenMin : Nat := Config.headerSize
  /-- `CRC16_ELSE_SHIFT` (R8). -/
  crc16ElseShift : ElseShift
  /-- A frame is at least its header: a packet's count is at least 20 (30_encoding.md R75), and the window of its CRC32 is never empty
  (43_framer.md R126). DEDUCED (log entry 3). -/
  headerFits : Config.headerSize ≤ msgLenMin := by decide
deriving DecidableEq, Repr

/-- The transport's answer to one `write(handle, bytes) -> count | fails` (44_encoder.md R144). -/
inductive WriteReply where
  | wrote (count : Nat)   -- the count the transport reports, whatever it is (R144: a short write is returned as it is)
  | failed                -- the write failed
deriving DecidableEq, Repr, Inhabited

namespace Config

/-- `SYNC_FLAG = 0x0079CFEB` (R6). -/
def syncFlag : U32 := 0x0079CFEB

/-- `CRC16_POLY = 0x1021` (R6). -/
def crc16Poly : U16 := 0x1021

/-- `CRC16_INIT = 0xFFFF` (R6). -/
def crc16Init : U16 := 0xFFFF

/-- `CRC32_POLY = 0xEDB88320`, the reflected form (R6). -/
def crc32Poly : U32 := 0xEDB88320

/-- `CRC32_INIT = 0xFFFFFFFF` (R6). -/
def crc32Init : U32 := 0xFFFFFFFF

/-- `CRC32_XOROUT = 0xFFFFFFFF` (R6). -/
def crc32XorOut : U32 := 0xFFFFFFFF

/-- The frame `type` the encoder writes: 0 = request (R6, 30_encoding.md R62). -/
def typeRequest : Byte := 0

/-- Frame `type` 1 = response, which comes from the peer (R6, 30_encoding.md R62, R65). -/
def typeResponse : Byte := 1

/-- Frame `type` 2 = push event, which comes from the peer (R6, 30_encoding.md R62, R65). -/
def typePushEvent : Byte := 2

/-- `need_resp` as the encoder writes it (30_encoding.md R62, R66). -/
def needRespSet : Byte := 1

/-- The longest URI: `uri_len = len(uri) + 1` is one byte (R9, 44_encoder.md R141). -/
def uriMax : Nat := 254

/-- The default parameters: the source's values for R7's, `RIGHT` for `CRC16_ELSE_SHIFT` (R8), and, DESIGN CHOICE (log entry
2), `C = 400000`, the value the programs of 95_test_vectors.md part C use; it meets R8's constraint. -/
def default : Config where
  capacity := 400000
  garbageCeiling := 4000
  msgLenMax := 400000
  crc16ElseShift := .right

/-- R8's constraint on `C`: `C >= MSG_LEN_MAX` and `C > GARBAGE_CEILING`. -/
abbrev Sized (cfg : Config) : Prop := cfg.msgLenMax ≤ cfg.capacity ∧ cfg.garbageCeiling < cfg.capacity

/-- FREE VALUE (log entry 6): what the transport answers to the `n`-th `write` of the run, when no answer stands in
`State.writeReplies`. The transport is outside the block (R5, R144): nothing is known of its answer. -/
opaque freeWriteReply : Nat → WriteReply

end Config

end Sys2Proof
end

