-- ==== Sys2Proof/Syntax.lean ====
section
/-! DEFINITION. The operations as syntax (spec/30_encoding.md R77, R80, R81): one constructor per row of spec/opcode_table.json,
its arguments those of R80, and the command as it arrives at the block's edge.

The compound names of R80 have no constructor of their own: `feed` is `PUT` issued by the producer, and `TRY_EXTRACT` and `SEND` are
rows of the table. -/

namespace Sys2Proof

/-- The transport handle the caller opened: the answer of the transport's `open`, a name that the block passes on (44_encoder.md R144; log
entry 25). -/
structure Handle where
  name : Nat
deriving DecidableEq, Repr

/-- A URI (without terminator) and a body, as `SEND` takes them together (44_encoder.md R144). -/
structure Message where
  uri : Bytes
  body : Bytes
deriving DecidableEq, Repr

/-- An operation with its arguments, written as R80 writes it. Byte sequences come with their length and carry no terminator;
`n` and `sequence` are unsigned (R81). -/
inductive Instr where
  | crc16 (data : Bytes)                          -- `CRC16 data`
  | crc32 (data : Bytes)                          -- `CRC32 data`
  | b64enc (data : Bytes)                         -- `B64ENC data`
  | b64dec (text : Bytes)                         -- `B64DEC text`
  | put (bytes : Bytes)                           -- `PUT bytes`, and `feed`
  | peek (n : Nat)                                -- `PEEK n`
  | consume (n : Nat)                             -- `CONSUME n`
  | reset                                         -- `RESET`
  | parse (view : Bytes)                          -- `PARSE view`
  | tryExtract                                    -- `TRY_EXTRACT`
  | encode (uri body : Bytes) (sequence : Nat)    -- `ENCODE uri body sequence`
  | send (handle : Handle) (message : Message) (sequence : Nat)   -- `SEND uri body sequence`, on the handle of R144
deriving DecidableEq, Repr

/-- The operand places beside the command word. The spec gives operands no bits of the word ("not part of the command word",
spec/opcode_table.json); DESIGN CHOICE (log entry 4): four places serve every operation, and one it does not name is ignored. -/
structure Operands where
  /-- `data`, `text`, `bytes`, `view` or `uri`. -/
  data : Bytes := []
  /-- `body`. -/
  body : Bytes := []
  /-- `n` or `sequence`. -/
  num : Nat := 0
  /-- The transport handle. -/
  handle : Handle := { name := 0 }
deriving DecidableEq, Repr

/-- A request as an agent issues it: the one-byte command word `op` of format `CMD8` (R77), and the operands. -/
structure Command where
  op : Byte
  operands : Operands := {}
deriving DecidableEq, Repr

end Sys2Proof
end

