-- ==== Sys2Proof/WellFormed.lean ====
section
/-! DEFINITION. Well-formed operations (spec/30_encoding.md R81): the operand ranges the spec gives.

Two checks, one each for `PEEK` and `CONSUME`: "`n` of `PEEK` and `CONSUME` is an unsigned integer `0 .. C`". Every other operand is any
byte sequence or any unsigned integer: a URI or body beyond the limits of 44_encoder.md R141 is no ill-formed operation, it is
answered with `ERR_FIELD_RANGE`. No step rests on this check: an `n` above `C` is above the occupancy too, and faults. -/

namespace Sys2Proof

/-- The operand ranges of R81, for a configuration that fixes `C`. -/
def Instr.wellFormed (cfg : Config) : Instr → Bool
  | .crc16 _ => true
  | .crc32 _ => true
  | .b64enc _ => true
  | .b64dec _ => true
  | .put _ => true
  | .peek n => n ≤ cfg.capacity
  | .consume n => n ≤ cfg.capacity
  | .reset => true
  | .parse _ => true
  | .tryExtract => true
  | .encode _ _ _ => true
  | .send _ _ _ => true

end Sys2Proof
end

