-- ==== Sys2Proof/Decode.lean ====
section
/-! DEFINITION. The command decoder and encoder (spec/30_encoding.md R77, R78): format `CMD8`, bits 7..0 = `op`.

The decoder is total on every command word: twelve codes select an operation, and every other code is rejected by name, which the
step answers with `Err(ERR_BAD_OP)` (R78). -/

namespace Sys2Proof

/-- Why a command is rejected: codes `0x00` and `0x0D`..`0xFF` "select no operation" (R78). -/
inductive DecodeError where
  | badOp (op : Byte)
deriving DecidableEq, Repr

/-- The operation a command selects, by the codes of R77's table. -/
def decode (c : Command) : Except DecodeError Instr :=
  match c.op.toNat with
  | 0x01 => .ok (.crc16 c.operands.data)
  | 0x02 => .ok (.crc32 c.operands.data)
  | 0x03 => .ok (.b64enc c.operands.data)
  | 0x04 => .ok (.b64dec c.operands.data)
  | 0x05 => .ok (.put c.operands.data)
  | 0x06 => .ok (.peek c.operands.num)
  | 0x07 => .ok (.consume c.operands.num)
  | 0x08 => .ok .reset
  | 0x09 => .ok (.parse c.operands.data)
  | 0x0A => .ok .tryExtract
  | 0x0B => .ok (.encode c.operands.data c.operands.body c.operands.num)
  | 0x0C => .ok (.send c.operands.handle { uri := c.operands.data, body := c.operands.body } c.operands.num)
  | _ => .error (.badOp c.op)

/-- The command of an operation: its code from R77's table, its operands in their places, the others empty. -/
def encode : Instr → Command
  | .crc16 data => { op := 0x01, operands := { data := data } }
  | .crc32 data => { op := 0x02, operands := { data := data } }
  | .b64enc data => { op := 0x03, operands := { data := data } }
  | .b64dec text => { op := 0x04, operands := { data := text } }
  | .put bytes => { op := 0x05, operands := { data := bytes } }
  | .peek n => { op := 0x06, operands := { num := n } }
  | .consume n => { op := 0x07, operands := { num := n } }
  | .reset => { op := 0x08 }
  | .parse view => { op := 0x09, operands := { data := view } }
  | .tryExtract => { op := 0x0A }
  | .encode uri body sequence => { op := 0x0B, operands := { data := uri, body := body, num := sequence } }
  | .send handle message sequence =>
    { op := 0x0C, operands := { data := message.uri, body := message.body, num := sequence, handle := handle } }

/-- The command of a table row's word: eight bits of command word, operands of zeros (empty sequences, the number 0, the handle of name 0). -/
def tableCommand (w : Nat) : Command := { op := BitVec.ofNat 8 w }

/-- The operation this decoder reads from a word of `nbits` bits; a command word is one byte (R77), no other width is one. -/
def decodeTableWord (nbits w : Nat) : Option Instr :=
  if nbits = 8 ∧ w < 256 then
    match decode (tableCommand w) with
    | .ok i => some i
    | .error _ => none
  else none

end Sys2Proof
end

