-- ==== Sys2Proof/Machine/State.lean ====
section
/-! DEFINITION. The machine's state as plain data (spec/10_state.md), the values operations return, and the reasons a step can stop.

The block's own state is the accumulator (R25) and what a `try_extract` in flight holds (R28); R33: "That is the whole state". The rest of
`State` is the block's edge (R31: RX, CMD, TX), the two agents (60_exceptions.md R160), and the parameters (R24). -/

namespace Sys2Proof.Machine

/-- The accumulator's content, `acc[0]` the oldest byte (R25). The addresses are the offsets `0 .. size-1` and no others (R31); an
offset beyond `size` does not exist for any operation, and storage there is not carried (R26). One sequence of bytes has one such list,
so equal memories are equal data (log entry 1). -/
abbrev Memory := Bytes

/-- "occupancy never exceeds capacity" (R25). -/
abbrev Memory.wf (capacity : Nat) (m : Memory) : Prop := m.length ≤ capacity

/-- The two contexts that act on the block (60_exceptions.md R160). -/
inductive Agent where
  | producer   -- P: the I/O thread, which feeds
  | consumer   -- Q: the application's loop
deriving DecidableEq, Repr

/-- One indivisible thing that can happen next, between any two locked regions (20_memory.md R50, 60_exceptions.md R160). -/
inductive Event where
  | turn (a : Agent)   -- the agent takes one step
  | cancel             -- the consumer stops between two of its steps (70_reset_and_hazards.md R173)
  | stopProducer       -- the producer has been stopped and joined (R172)
  | hardwareReset      -- hardware reset (R170)
deriving DecidableEq, Repr

/-- The error codes of 60_exceptions.md R150; their numbers are `ErrorCode.number`. -/
inductive ErrorCode where
  | capacity     -- `ERR_CAPACITY`
  | b64Length    -- `ERR_B64_LENGTH`
  | fieldRange   -- `ERR_FIELD_RANGE`
  | transport    -- `ERR_TRANSPORT`
  | badOp        -- `ERR_BAD_OP`
deriving DecidableEq, Repr

/-- The four fields of a delivered packet (30_encoding.md R76): a value, not state (10_state.md R32). -/
structure ParsedPacket where
  uri : Bytes
  body : Bytes
  type : Byte
  serial : U16
deriving DecidableEq, Repr

/-- The parser's answer, exactly three cases: `Discard{n}` with `n >= 1`, `Packet{value, consumed}` with `consumed >= 20`; "Valid but zero
consumed" cannot be written (30_encoding.md R75). -/
inductive Decision where
  | needMoreData
  | discard (n : Nat) (pos : 1 ≤ n)
  | packet (value : ParsedPacket) (consumed : Nat) (holdsHeader : Config.headerSize ≤ consumed)
deriving DecidableEq, Repr

/-- What an operation returns (00_scope.md R13, and the `result` column of spec/opcode_table.json). -/
inductive Result where
  | ok                        -- `Ok` of PUT, CONSUME, RESET
  | u16 (v : U16)             -- CRC16
  | u32 (v : U32)             -- CRC32
  | bytes (b : Bytes)         -- `Ok(text)`, `Ok(data)`, `Ok(view)`, `Ok(frame)`
  | count (n : Nat)           -- `Ok(count)` of SEND
  | decision (d : Decision)   -- PARSE, TRY_EXTRACT
  | err (e : ErrorCode)       -- `Err(code)`
deriving DecidableEq, Repr

/-- What the consumer's `try_extract` holds between its phases (R28; 43_framer.md R130 to R132). -/
inductive InFlight where
  | idle                                   -- no snapshot is held
  | viewed (view : Bytes)                  -- after T1: the private copy
  | decided (view : Bytes) (d : Decision)  -- after T2: the copy and the pending decision
deriving DecidableEq, Repr

/-- What the consumer has seen of the accumulator and parsed, which settles what a `CONSUME` after a parse "must exactly match"
(42_accumulator.md R116, 70_reset_and_hazards.md R174). -/
structure Report where
  snapshots : List Bytes   -- the private copies taken by `PEEK` and T1 of the bytes now at the front, oldest first
  past : List Bytes        -- those taken before a `CONSUME` or `RESET`
  parsed : List Bytes      -- the views parsed so far, rising: a set, since parses have no order (20_memory.md R57)
deriving DecidableEq, Repr

/-- One result handed to the agent that issued the operation (60_exceptions.md R150). -/
structure Delivery where
  agent : Agent
  result : Result
deriving DecidableEq, Repr

/-- One call `write(handle, frame)` at TX, with what the transport answered (R31, 44_encoder.md R144). -/
structure TxWrite where
  handle : Handle
  frame : Bytes
  reply : WriteReply
deriving DecidableEq, Repr

/-- Reasons a step stops with a fault. -/
inductive Fault where
  /-- Raised by `PEEK n` with `n > size` (42_accumulator.md R112, 60_exceptions.md R165). Safe: the spec gives this use the outcome fault,
  no value and no state. -/
  | peekBeyondSize
  /-- Raised by `CONSUME n` with `n > size`, and by the T3 phase of `TRY_EXTRACT` in a state no run reaches (R114, R132, R165). Safe: as
  above. -/
  | consumeBeyondSize
deriving DecidableEq, Repr

/-- Reasons a step is refused. -/
inductive Refusal where
  /-- Raised by an arm of `exec` whose instruction has no meaning. No arm is so. Safe: nothing is concluded of it. -/
  | notModelled (mnemonic : String)
  /-- Raised by `issue` for an operation that the table of 30_encoding.md R77 does not open to the agent that issued it: a second
  producer or a second consumer, a system to which "the spec gives no meaning" and whose treatment is `refuse` (60_exceptions.md R161,
  93_implementation_defined.md U14; log entry 7). Safe: the machine stops where the block might go on. -/
  | notOpenToAgent (a : Agent) (i : Instr)
  /-- Raised by `issue` for the consumer's `CONSUME n`, `n <= size`, after a parse of a snapshot, when `n` is no count the parser reported of a
  snapshot taken since the last `CONSUME` or `RESET`: outside the specified behaviour, the treatment is `refuse` (42_accumulator.md R116,
  70_reset_and_hazards.md R174, 93_implementation_defined.md U2; log entry 9). That a parse of a snapshot from before that `CONSUME` or `RESET`
  still bars one that follows no new parse is a DESIGN CHOICE (log entry 9). Safe: the machine stops where the block, which cannot detect it
  (60_exceptions.md R165), goes on. -/
  | consumeNotReported (n : Nat)
deriving DecidableEq, Repr

/-- The state of the machine. -/
structure State where
  /-- The parameters, fixed before reset and written by no operation (00_scope.md R7, R8; 10_state.md R24). -/
  config : Config
  /-- `acc`, with `size = acc.length` (R25). -/
  acc : Memory
  /-- The consumer's `try_extract` in flight (R28). -/
  inFlight : InFlight
  /-- What the consumer has seen and parsed (42_accumulator.md R116). The consumer's own; no operation reads it. -/
  report : Report
  /-- The agent whose step this is: the one the running operation's result goes to. The model's own. -/
  active : Agent
  /-- Whether the producer still issues operations (70_reset_and_hazards.md R171, R172). -/
  producerOn : Bool
  /-- Operations the producer has yet to issue, oldest first: its feeds of RX bytes (R31, R113), and its stateless ones. -/
  producerQueue : List Command
  /-- Operations the consumer has yet to issue, oldest first: the CMD requests (R31). -/
  consumerQueue : List Command
  /-- What happens next, first event first: the order in which the agents take the lock, which no rule fixes (20_memory.md R54). -/
  events : List Event
  /-- The transport's answers to writes yet to come, first one first (44_encoder.md R144). -/
  writeReplies : List WriteReply
  /-- The frames handed to the transport so far, oldest first (TX, R31). No operation's effect on the block depends on it. -/
  tx : List TxWrite
  /-- The results handed to the agents so far, oldest first (CMD, R31). No operation reads it. -/
  delivered : List Delivery
deriving DecidableEq, Repr

/-- `size`: the current occupancy (R25). -/
abbrev State.size (s : State) : Nat := s.acc.length

/-- After hardware reset: `size = 0`, `acc = []`, no snapshot held, no operation in flight, the lock free (R33). Both agents may act from
reset on (60_exceptions.md R161). The edge holds nothing: nothing issued, nothing scheduled, nothing delivered. -/
def State.reset : State where
  config := Config.default
  acc := []
  inFlight := .idle
  report := { snapshots := [], past := [], parsed := [] }
  active := .consumer
  producerOn := true
  producerQueue := []
  consumerQueue := []
  events := []
  writeReplies := []
  tx := []
  delivered := []

/-- What an event comes to, before any operation runs. -/
inductive Issue where
  | run (i : Instr) (s : State)   -- the operation `i` runs at `s`
  | done (s : State)              -- the event is over: no operation runs
  | refuse (r : Refusal)          -- the request has no meaning
deriving DecidableEq, Repr

end Sys2Proof.Machine
end

