-- ==== Sys2Proof/Machine/Flags.lean ====
section
/-! DEFINITION. The block has no flag, condition code or sticky error bit (spec/10_state.md R23): an outcome is carried by the result alone.
What stands here is all there is to read off a result: the numbers of the error codes (60_exceptions.md R150), whether a result is an
error, and the count a decision carries (30_encoding.md R75). -/

namespace Sys2Proof.Machine

/-- The numbers of R150's table. -/
def ErrorCode.number : ErrorCode → Nat
  | .capacity => 1
  | .b64Length => 2
  | .fieldRange => 3
  | .transport => 4
  | .badOp => 5

/-- Whether a result is `Err(code)` (00_scope.md R13). -/
def Result.isErr : Result → Bool
  | .err _ => true
  | .ok => false
  | .u16 _ => false
  | .u32 _ => false
  | .bytes _ => false
  | .count _ => false
  | .decision _ => false

/-- The count to consume: zero, `n`, or `consumed` (R75, 43_framer.md R132). -/
def Decision.count : Decision → Nat
  | .needMoreData => 0
  | .discard n _ => n
  | .packet _ consumed _ => consumed

end Sys2Proof.Machine
end

