-- ==== Sys2Proof/Machine/Operands.lean ====
section
/-! DEFINITION. The operand notation of spec/00_scope.md R11 and R12 over byte sequences: slices, little-endian reads and writes, `cstr`,
`find`; and the operand forms of the table: which agent may issue an operation (30_encoding.md R77). -/

namespace Sys2Proof.Machine

/-- `b[o]` (R11). The rules read it only for `o < len(b)`; beyond, the total function gives 0. -/
def byteAt (b : Bytes) (o : Nat) : Byte := b.getD o 0

/-- `b[i : j)`, the half-open slice (R11). -/
def slice (b : Bytes) (i j : Nat) : Bytes := (b.drop i).take (j - i)

/-- `le16(b, o) = b[o] | b[o+1] << 8` (R11). -/
def le16 (b : Bytes) (o : Nat) : U16 :=
  (byteAt b o).setWidth 16 ||| ((byteAt b (o + 1)).setWidth 16 <<< 8)

/-- `le32(b, o) = b[o] | b[o+1] << 8 | b[o+2] << 16 | b[o+3] << 24` (R11). -/
def le32 (b : Bytes) (o : Nat) : U32 :=
  (byteAt b o).setWidth 32 ||| ((byteAt b (o + 1)).setWidth 32 <<< 8)
    ||| ((byteAt b (o + 2)).setWidth 32 <<< 16) ||| ((byteAt b (o + 3)).setWidth 32 <<< 24)

/-- `put_le16(v) = [v[7:0], v[15:8]]` (R11). -/
def putLe16 (v : U16) : Bytes := [v.extractLsb' 0 8, v.extractLsb' 8 8]

/-- `put_le32(v) = [v[7:0], v[15:8], v[23:16], v[31:24]]` (R11). -/
def putLe32 (v : U32) : Bytes := [v.extractLsb' 0 8, v.extractLsb' 8 8, v.extractLsb' 16 8, v.extractLsb' 24 8]

/-- `cstr(b)`: the bytes before the first `0x00`, `b` whole when there is none (R11). -/
def cstr (b : Bytes) : Bytes := b.takeWhile (· != 0)

/-- `find(b, p)`: the least offset `k` with `b[k : k+len(p)) = p` (R11). -/
def find (p : Bytes) : Bytes → Option Nat
  | [] => if p = [] then some 0 else none
  | x :: b => if (x :: b).take p.length = p then some 0 else (find p b).map (· + 1)

/-- The sync marker, the little-endian bytes of `SYNC_FLAG`: `EB CF 79 00` (30_encoding.md R63). -/
def syncMarker : Bytes := putLe32 Config.syncFlag

/-- The `agent` column of R77's table: which agent an operation is open to. -/
def openTo (a : Agent) : Instr → Bool
  | .crc16 _ => true
  | .crc32 _ => true
  | .b64enc _ => true
  | .b64dec _ => true
  | .put _ => a = .producer
  | .peek _ => a = .consumer
  | .consume _ => a = .consumer
  | .reset => a = .consumer
  | .parse _ => true
  | .tryExtract => a = .consumer
  | .encode _ _ _ => true
  | .send _ _ _ => a = .consumer

end Sys2Proof.Machine
end

