-- ==== Sys2Proof/Machine/Ops.lean ====
section
/-! DEFINITION. The named operations over state that the meanings share (spec/00_scope.md R12, R13): the accumulator's `MemRead`, `MemWrite`
and removal from the front, delivering a result, raising an error, reset, and the transport's write.

RAISING AN ERROR is `State.raise`: there is no trap entry (60_exceptions.md R157), an error is the operation's result, delivered to
the agent that issued it, with no state changed. There is no return from one (R158). -/

namespace Sys2Proof.Machine

/-- One byte of the accumulator; an offset at or beyond `size` does not exist (R31). -/
def State.readByte (s : State) (a : Nat) : Option Byte := s.acc[a]?

/-- `MemRead(a, n)` is `acc[a : a+n)`, "defined only for `a + n <= size`" (R12). -/
def State.memRead (s : State) (a n : Nat) : Option Bytes :=
  if a + n ≤ s.size then some (slice s.acc a (a + n)) else none

/-- `MemWrite(a, n, v)` with `n = len(v)` is "defined only as an append (`a = size`, `a + n <= C`)" (R12). -/
def State.memWrite (s : State) (a : Nat) (v : Bytes) : Option State :=
  if a = s.size ∧ a + v.length ≤ s.config.capacity then some { s with acc := s.acc ++ v } else none

/-- `acc <- acc[n : size)`, for `n <= size` (42_accumulator.md R114). -/
def State.dropFront (s : State) (n : Nat) : Option State :=
  if n ≤ s.size then some { s with acc := s.acc.drop n } else none

/-- Hand a result to the agent whose step this is (R13, 60_exceptions.md R150). -/
def State.deliver (s : State) (r : Result) : State :=
  { s with delivered := s.delivered ++ [{ agent := s.active, result := r }] }

/-- `raise <Error>`: "ends the operation with result `Err(<Error>)` and ... leaves the state as it was" (R12, 60_exceptions.md R157). -/
def State.raise (s : State) (e : ErrorCode) : State := s.deliver (.err e)

/-- The state after hardware reset and after `RESET`: accumulator empty, no snapshot held, nothing in flight (10_state.md R33,
70_reset_and_hazards.md R170). Nothing beyond the block is reached. -/
def State.clearBlock (s : State) : State := { s with acc := [], inFlight := .idle }

/-- The transport's answer to the next write: the first that stands waiting, else the free value of this write. -/
def State.nextReply (s : State) : WriteReply :=
  match s.writeReplies with
  | [] => Config.freeWriteReply s.tx.length
  | r :: _ => r

/-- What a write's answer is to the caller: the count as it is, or `ERR_TRANSPORT` (44_encoder.md R144). -/
def replyResult : WriteReply → Result
  | .wrote count => .count count
  | .failed => .err .transport

/-- `transport.write(handle, frame)`: the frame passes TX, the transport answers, the caller gets the answer (R144). The accumulator is
not touched and no lock is held (20_memory.md R53). -/
def State.transportWrite (s : State) (handle : Handle) (frame : Bytes) : State :=
  let t : State := { s with
    tx := s.tx ++ [{ handle := handle, frame := frame, reply := s.nextReply }]
    writeReplies := s.writeReplies.tail }
  t.deliver (replyResult s.nextReply)

end Sys2Proof.Machine
end

