-- ==== Sys2Proof/Machine/Accumulator.lean ====
section
/-! DEFINITION. The Frame Accumulator (spec/42_accumulator.md): `PUT` (R111, R113), `PEEK` (R112), `CONSUME` (R114), `RESET` (R115). Each is one
atomic step (20_memory.md R45). -/

namespace Sys2Proof.Machine

/-- `PUT bytes -> Ok | Err(ERR_CAPACITY)` (R111): all of the chunk or none of it. -/
def execPut (bytes : Bytes) (s : State) : Host.Outcome State Fault Refusal :=
  match s.memWrite s.size bytes with
  | none => .next (s.raise .capacity)
  | some t => .next (t.deliver .ok)

/-- `PEEK n -> view` (R112); `n > size` is `fault(PEEK_BEYOND_SIZE)` (60_exceptions.md R165). -/
def execPeek (n : Nat) (s : State) : Host.Outcome State Fault Refusal :=
  match s.memRead 0 n with
  | none => .fault .peekBeyondSize
  | some view => .next (s.deliver (.bytes view))

/-- `CONSUME n -> Ok` (R114); `n > size` is `fault(CONSUME_BEYOND_SIZE)` (60_exceptions.md R165). -/
def execConsume (n : Nat) (s : State) : Host.Outcome State Fault Refusal :=
  match s.dropFront n with
  | none => .fault .consumeBeyondSize
  | some t => .next (t.deliver .ok)

/-- `RESET -> Ok` (R115): the buffer is emptied; after it no snapshot is held (10_state.md R33, 70_reset_and_hazards.md R170). -/
def execReset (s : State) : Host.Outcome State Fault Refusal :=
  .next (s.clearBlock.deliver .ok)

end Sys2Proof.Machine
end

