-- ==== Sys2Proof/Machine/Base64.lean ====
section
/-! DEFINITION. The Base64 Codec (spec/41_base64.md): `B64ENC` (R101) and `B64DEC` (R104), with the alphabet of 30_encoding.md R73 and R74.
Stateless. -/

namespace Sys2Proof.Machine

/-- The pad character `=` (R73). -/
def padChar : Byte := 0x3D

/-- `enc6(v)`: the alphabet character of value `v` (R73, R74). -/
def enc6 (v : BitVec 6) : Byte :=
  let n := v.toNat
  if n < 26 then BitVec.ofNat 8 (0x41 + n)
  else if n < 52 then BitVec.ofNat 8 (0x61 + (n - 26))
  else if n < 62 then BitVec.ofNat 8 (0x30 + (n - 52))
  else if n = 62 then 0x2B
  else 0x2F

/-- `dec6(c)`: the value of an alphabet character; `none` stands for the sentinel, whose numeric value "is not given and is not
observable" (R74). -/
def dec6 (c : Byte) : Option (BitVec 6) :=
  let n := c.toNat
  if 0x41 ≤ n ∧ n ≤ 0x5A then some (BitVec.ofNat 6 (n - 0x41))
  else if 0x61 ≤ n ∧ n ≤ 0x7A then some (BitVec.ofNat 6 (26 + (n - 0x61)))
  else if 0x30 ≤ n ∧ n ≤ 0x39 then some (BitVec.ofNat 6 (52 + (n - 0x30)))
  else if n = 0x2B then some 62
  else if n = 0x2F then some 63
  else none

/-- `bits6(c)`: unknown and padding characters "contribute zero bits" (R74). -/
def bits6 (c : Byte) : BitVec 6 := (dec6 c).getD 0

/-- One encoded group: `t` from three bytes, cut into four sextets, the first from bits 23..18 (R101). -/
def encGroup (b0 b1 b2 : Byte) : Bytes :=
  let t : U24 := b0 ++ b1 ++ b2
  [enc6 (t.extractLsb' 18 6), enc6 (t.extractLsb' 12 6), enc6 (t.extractLsb' 6 6), enc6 (t.extractLsb' 0 6)]

/-- The groups of R101, a missing byte taken as `0x00`. -/
def encGroups : Bytes → Bytes
  | [] => []
  | [b0] => encGroup b0 0 0
  | [b0, b1] => encGroup b0 b1 0
  | b0 :: b1 :: b2 :: rest => encGroup b0 b1 b2 ++ encGroups rest

/-- The pad-count table `{0, 2, 1}` by `n % 3` (00_scope.md R6, 41_base64.md R100). -/
def padCount (n : Nat) : Nat :=
  match n % 3 with
  | 0 => 0
  | 1 => 2
  | _ => 1

/-- `B64ENC data` (R101): the groups, their last `pad` characters replaced by `=`. -/
def b64Encode (data : Bytes) : Bytes :=
  let out := encGroups data
  let pad := padCount data.length
  out.take (out.length - pad) ++ List.replicate pad padChar

/-- One decoded group: three bytes of `t`, the first from bits 23..16 (R104). -/
def decGroup (c0 c1 c2 c3 : Byte) : Bytes :=
  let t : U24 := bits6 c0 ++ bits6 c1 ++ bits6 c2 ++ bits6 c3
  [t.extractLsb' 16 8, t.extractLsb' 8 8, t.extractLsb' 0 8]

/-- The groups of R104, of a text whose length is a multiple of 4 (what is left of another text gives no group). -/
def decGroups : Bytes → Bytes
  | c0 :: c1 :: c2 :: c3 :: rest => decGroup c0 c1 c2 c3 ++ decGroups rest
  | _ => []

/-- `pad`: the length of the final run of `=`, capped at 2 (R104, R106). -/
def trailingPad (text : Bytes) : Nat :=
  let m := text.length
  if 4 ≤ m ∧ byteAt text (m - 1) = padChar then
    if byteAt text (m - 2) = padChar then 2 else 1
  else 0

/-- `B64DEC text` (R104); a length that is no multiple of 4 is the only refusal (R103). -/
def b64Decode (text : Bytes) : Except ErrorCode Bytes :=
  if text.length % 4 ≠ 0 then .error .b64Length
  else .ok ((decGroups text).take (text.length / 4 * 3 - trailingPad text))

/-- `B64ENC data -> text` (R101). -/
def execB64enc (data : Bytes) (s : State) : Host.Outcome State Fault Refusal :=
  .next (s.deliver (.bytes (b64Encode data)))

/-- `B64DEC text -> data | Err(ERR_B64_LENGTH)` (R104). -/
def execB64dec (text : Bytes) (s : State) : Host.Outcome State Fault Refusal :=
  match b64Decode text with
  | .error e => .next (s.raise e)
  | .ok data => .next (s.deliver (.bytes data))

end Sys2Proof.Machine
end

