-- ==== Sys2Proof/Machine/Crc.lean ====
section
/-! DEFINITION. The Checksum Module (spec/40_crc.md): `CRC16` (R91) and `CRC32` (R94), bit-serial as the rules print them. Pure functions:
neither reads or writes any state of the block, and neither can fail (R90). -/

namespace Sys2Proof.Machine

/-- One CRC16 round (R91): top bit set, shift left and XOR the polynomial; else shift as `CRC16_ELSE_SHIFT` says. -/
def crc16Round (dir : ElseShift) (crc : U16) : U16 :=
  if crc.getLsbD 15 then (crc <<< 1) ^^^ Config.crc16Poly
  else match dir with
    | .right => crc >>> 1
    | .left => crc <<< 1

/-- One byte of CRC16: XOR into the high byte, then eight rounds (R91). -/
def crc16Byte (dir : ElseShift) (crc : U16) (b : Byte) : U16 :=
  Nat.repeat (crc16Round dir) 8 (crc ^^^ (b.setWidth 16 <<< 8))

/-- `CRC16 data` (R91): bytes in increasing offset order, no final XOR. -/
def crc16 (dir : ElseShift) (data : Bytes) : U16 :=
  data.foldl (crc16Byte dir) Config.crc16Init

/-- One CRC32 round (R94): bit 0 set, shift right and XOR the reflected polynomial; else shift right. -/
def crc32Round (crc : U32) : U32 :=
  if crc.getLsbD 0 then (crc >>> 1) ^^^ Config.crc32Poly else crc >>> 1

/-- One byte of CRC32: XOR into the low byte, then eight rounds (R94). -/
def crc32Byte (crc : U32) (b : Byte) : U32 :=
  Nat.repeat crc32Round 8 (crc ^^^ b.setWidth 32)

/-- `CRC32 data` (R94), with the final complement. -/
def crc32 (data : Bytes) : U32 :=
  data.foldl crc32Byte Config.crc32Init ^^^ Config.crc32XorOut

/-- `CRC16 data -> u16` (R91). -/
def execCrc16 (data : Bytes) (s : State) : Host.Outcome State Fault Refusal :=
  .next (s.deliver (.u16 (crc16 s.config.crc16ElseShift data)))

/-- `CRC32 data -> u32` (R94). -/
def execCrc32 (data : Bytes) (s : State) : Host.Outcome State Fault Refusal :=
  .next (s.deliver (.u32 (crc32 data)))

end Sys2Proof.Machine
end

