-- ==== Sys2Proof/Machine/Encoder.lean ====
section
/-! DEFINITION. The Message Encoder (spec/44_encoder.md): `ENCODE` (R140 to R142) and `SEND` (R144). The frame is that of 30_encoding.md R60 to
R62. -/

namespace Sys2Proof.Machine

/-- `msg_len = head_len + uri_len + len(body)` with `uri_len = len(uri) + 1` (30_encoding.md R62). -/
def msgLenOf (uri body : Bytes) : Nat := Config.headerSize + (uri.length + 1) + body.length

/-- Header bytes `[12 .. 20)`: `msg_len`, `serial`, `type`, `need_resp`; the window of `head_crc16` (30_encoding.md R61, 40_crc.md R93). -/
def headWindow (uri body : Bytes) (sequence : Nat) : Bytes :=
  putLe32 (BitVec.ofNat 32 (msgLenOf uri body)) ++ putLe16 (BitVec.ofNat 16 sequence)
    ++ [Config.typeRequest, Config.needRespSet]

/-- Frame bytes `[8 .. msg_len)`: `head_crc16`, `head_len`, `uri_len`, the window above, the URI with its terminator, the body; the window of
`msg_crc32` (30_encoding.md R61, R62). -/
def msgWindow (dir : ElseShift) (uri body : Bytes) (sequence : Nat) : Bytes :=
  putLe16 (crc16 dir (headWindow uri body sequence))
    ++ [BitVec.ofNat 8 Config.headerSize, BitVec.ofNat 8 (uri.length + 1)]
    ++ headWindow uri body sequence ++ uri ++ [0] ++ body

/-- `ENCODE uri body sequence` (R140), with the limits of R141. `head_crc16` stands in the frame before `msg_crc32` is computed. -/
def encodeFrame (cfg : Config) (uri body : Bytes) (sequence : Nat) : Except ErrorCode Bytes :=
  if Config.uriMax < uri.length ∨ cfg.msgLenMax < msgLenOf uri body then .error .fieldRange
  else
    let window := msgWindow cfg.crc16ElseShift uri body sequence
    .ok (putLe32 Config.syncFlag ++ putLe32 (crc32 window) ++ window)

/-- `ENCODE uri body sequence -> frame | Err(ERR_FIELD_RANGE)` (R140): pure. -/
def execEncode (uri body : Bytes) (sequence : Nat) (s : State) : Host.Outcome State Fault Refusal :=
  match encodeFrame s.config uri body sequence with
  | .error e => .next (s.raise e)
  | .ok frame => .next (s.deliver (.bytes frame))

/-- `SEND uri body sequence -> count | Err` on a transport handle (R144): an `ENCODE` error comes before any write (60_exceptions.md R156). -/
def execSend (handle : Handle) (message : Message) (sequence : Nat) (s : State) : Host.Outcome State Fault Refusal :=
  match encodeFrame s.config message.uri message.body sequence with
  | .error e => .next (s.raise e)
  | .ok frame => .next (s.transportWrite handle frame)

end Sys2Proof.Machine
end

