-- ==== Sys2Proof/Machine/Framer.lean ====
section
/-! DEFINITION. The Packet Framer/Parser and `try_extract` (spec/43_framer.md): `PARSE` (R129, check by check R121 to R128) and `TRY_EXTRACT` in
its three phases (R130 to R132). -/

namespace Sys2Proof.Machine

/-- The end of the URI window and start of the body window, clamped to the frame (R127). -/
def uriEnd (frame : Bytes) : Nat := min ((byteAt frame 10).toNat + (byteAt frame 11).toNat) frame.length

/-- `uri_raw = frame[us : ue)` (R127). -/
def uriRaw (frame : Bytes) : Bytes := slice frame (min (byteAt frame 10).toNat frame.length) (uriEnd frame)

/-- `body_raw = frame[ue : msg_len)` (R127). -/
def bodyRaw (frame : Bytes) : Bytes := slice frame (uriEnd frame) frame.length

/-- The packet of an accepted frame (R127). -/
def packetOf (frame : Bytes) : ParsedPacket where
  uri := cstr (uriRaw frame)
  body := cstr (bodyRaw frame)
  type := byteAt frame 18
  serial := le16 frame 16

/-- Checks 3 to 6, with the marker at offset 0 (R123 to R127). `head_crc16` is not looked at (R128). -/
def parseAtMarker (cfg : Config) (view : Bytes) : Decision :=
  if view.length < Config.headerSize then .needMoreData
  else
    let msgLen := (le32 view 12).toNat
    if h : msgLen < cfg.msgLenMin ∨ cfg.msgLenMax < msgLen then .discard 1 (Nat.le_refl 1)
    else if view.length < msgLen then .needMoreData
    else if crc32 (slice view 8 msgLen) ≠ le32 view 4 then .discard 1 (Nat.le_refl 1)
    else .packet (packetOf (slice view 0 msgLen)) msgLen
      (Nat.le_trans cfg.headerFits (Nat.le_of_not_lt fun hl => h (.inl hl)))

/-- `PARSE view -> Decision` (R129): checks 1 and 2, then `parseAtMarker`. -/
def parse (cfg : Config) (view : Bytes) : Decision :=
  if view.length < 4 then .needMoreData
  else
    match find syncMarker view with
    | none =>
      if h : cfg.garbageCeiling < view.length then .discard view.length (Nat.zero_lt_of_lt h) else .needMoreData
    | some 0 => parseAtMarker cfg view
    | some (k + 1) => .discard (k + 1) (Nat.succ_pos k)

/-- `PARSE view` (R129): reads only `view`, changes no state, never an error (R120). -/
def execParse (view : Bytes) (s : State) : Host.Outcome State Fault Refusal :=
  .next (s.deliver (.decision (parse s.config view)))

/-- `TRY_EXTRACT` (R130 to R132), one phase a step: T1 takes the whole content as a private copy; T2 parses the copy, with no lock held; T3
applies the decision's own count to the accumulator and returns the decision. T3 cannot exceed the occupancy in any state a run
reaches (R132); in the others it is the fault of `CONSUME`. -/
def execTryExtract (s : State) : Host.Outcome State Fault Refusal :=
  match s.inFlight with
  | .idle => .next { s with inFlight := .viewed s.acc }
  | .viewed view => .next { s with inFlight := .decided view (parse s.config view) }
  | .decided _ d =>
    match s.dropFront d.count with
    | none => .fault .consumeBeyondSize
    | some t => .next (State.deliver { t with inFlight := .idle } (.decision d))

end Sys2Proof.Machine
end

