-- ==== Sys2Proof/Machine/Dispatch.lean ====
section
/-! DEFINITION. The dispatch: one arm per constructor of Instr, each one direct call of its meaning. -/

namespace Sys2Proof.Machine

/-- The effect of one operation on the state (spec/00_scope.md R2). -/
def exec (i : Instr) (s : State) : Host.Outcome State Fault Refusal :=
  match i with
  | .crc16 data => Sys2Proof.Machine.execCrc16 data s
  | .crc32 data => Sys2Proof.Machine.execCrc32 data s
  | .b64enc data => Sys2Proof.Machine.execB64enc data s
  | .b64dec text => Sys2Proof.Machine.execB64dec text s
  | .put bytes => Sys2Proof.Machine.execPut bytes s
  | .peek n => Sys2Proof.Machine.execPeek n s
  | .consume n => Sys2Proof.Machine.execConsume n s
  | .reset => Sys2Proof.Machine.execReset s
  | .parse view => Sys2Proof.Machine.execParse view s
  | .tryExtract => Sys2Proof.Machine.execTryExtract s
  | .encode uri body sequence => Sys2Proof.Machine.execEncode uri body sequence s
  | .send handle message sequence => Sys2Proof.Machine.execSend handle message sequence s

end Sys2Proof.Machine
end

