-- ==== Sys2Proof/Machine/Issue.lean ====
section
/-! DEFINITION. Issuing the next operation: the agents' queues, the two rules of use whose breach the spec gives no meaning (treatment
`refuse`, spec/93_implementation_defined.md U2 and U14), and what the next event comes to. -/

namespace Sys2Proof.Machine

/-- The operations an agent has yet to issue. -/
def State.queue (s : State) : Agent → List Command
  | .producer => s.producerQueue
  | .consumer => s.consumerQueue

/-- The same with the agent's queue replaced. -/
def State.setQueue (s : State) (a : Agent) (q : List Command) : State :=
  match a with
  | .producer => { s with producerQueue := q }
  | .consumer => { s with consumerQueue := q }

/-- A set of byte sequences as a rising list, with one more. -/
def insertView (v : Bytes) (views : List Bytes) : List Bytes :=
  views.filter (fun u => decide (u < v)) ++ v :: views.filter (fun u => decide (v < u))

/-- The consumer has taken a private copy of the first bytes: by `PEEK` (42_accumulator.md R112), or by T1 (43_framer.md R130). -/
def Report.noteCopy (copy : Bytes) (r : Report) : Report := { r with snapshots := r.snapshots ++ [copy] }

/-- The consumer has parsed `view`: nothing but the view is looked at, so the order of a parse among the steps of both agents cannot be told
(20_memory.md R57), but for the consumer's own `CONSUME`, which is to follow it (42_accumulator.md R116). -/
def Report.noteParse (view : Bytes) (r : Report) : Report := { r with parsed := insertView view r.parsed }

/-- A `CONSUME` or `RESET` has come: the snapshots before it are of bytes no longer at the front (70_reset_and_hazards.md R174). DESIGN CHOICE,
safe (log entry 9): a consumer that has parsed one of them stays bound, to no count, until a new snapshot is parsed; the spec is silent on a
`CONSUME` that follows the removal with no new parse. -/
def Report.noteRemoval (r : Report) : Report := { r with snapshots := [], past := r.snapshots ++ r.past }

/-- `view` is of one of the copies: the copy, or its first bytes, told by the bytes alone. DESIGN CHOICE, unsafe (log entry 9). -/
def isOf (copies : List Bytes) (view : Bytes) : Bool := copies.any view.isPrefixOf

/-- Whether the consumer's `CONSUME n` is what the parser reported: of a snapshot of the bytes at the front, if the consumer has parsed any
snapshot at all. One that follows no parse is no mismatch. -/
def Report.allows (cfg : Config) (r : Report) (n : Nat) : Bool :=
  r.parsed.all (fun v => !isOf (r.snapshots ++ r.past) v) ||
    r.parsed.any (fun v => isOf r.snapshots v && decide ((parse cfg v).count = n))

/-- What the consumer has seen and parsed once it takes the next phase of its `try_extract`: T1 is a copy (43_framer.md R130), T2 a parse (R131),
T3 a `CONSUME` of the decision's count, but for `NeedMoreData`, which does nothing (R132). -/
def State.reportAfterPhase (s : State) : Report :=
  match s.inFlight with
  | .idle => s.report.noteCopy s.acc
  | .viewed view => s.report.noteParse view
  | .decided _ d => if d = .needMoreData then s.report else s.report.noteRemoval

/-- What the consumer has seen and parsed once it issues `i`, or the next phase of it (42_accumulator.md R116, 70_reset_and_hazards.md R174). -/
def State.reportAfter (s : State) : Instr → Report
  | .crc16 _ => s.report
  | .crc32 _ => s.report
  | .b64enc _ => s.report
  | .b64dec _ => s.report
  | .put _ => s.report
  | .peek n => s.report.noteCopy (s.acc.take n)
  | .consume _ => s.report.noteRemoval
  | .reset => s.report.noteRemoval
  | .parse view => s.report.noteParse view
  | .tryExtract => s.reportAfterPhase
  | .encode _ _ _ => s.report
  | .send _ _ _ => s.report

/-- The agent `a` issues `i`, or takes its next phase: the consumer's report follows. -/
def State.note (s : State) (a : Agent) (i : Instr) : State :=
  match a with
  | .producer => s
  | .consumer => { s with report := s.reportAfter i }

/-- Whether `i` is a `CONSUME` within the occupancy whose count is not a reported one (42_accumulator.md R116). -/
def State.offCount (s : State) : Instr → Option Nat
  | .crc16 _ => none
  | .crc32 _ => none
  | .b64enc _ => none
  | .b64dec _ => none
  | .put _ => none
  | .peek _ => none
  | .consume n => if n ≤ s.size ∧ s.report.allows s.config n = false then some n else none
  | .reset => none
  | .parse _ => none
  | .tryExtract => none
  | .encode _ _ _ => none
  | .send _ _ _ => none

/-- Why the spec gives no meaning to `a` issuing `i` here: a second producer or consumer (93_implementation_defined.md U14), a `CONSUME` that
is not the parser's (U2). -/
def State.objection (s : State) (a : Agent) (i : Instr) : Option Refusal :=
  if openTo a i then (s.offCount i).map .consumeNotReported else some (.notOpenToAgent a i)

/-- The next request of an agent's queue. A code that selects no operation: "the block does nothing and returns `Err(ERR_BAD_OP)`"
(30_encoding.md R78). -/
def State.fetch (s : State) (a : Agent) : Issue :=
  match s.queue a with
  | [] => .done s
  | c :: q =>
    match decode c with
    | .error _ => .done ((s.setQueue a q).raise .badOp)
    | .ok i =>
      match s.objection a i with
      | some r => .refuse r
      | none => .run i ((s.setQueue a q).note a i)

/-- The agent `a` takes one step (60_exceptions.md R160). A stopped producer issues nothing (70_reset_and_hazards.md R172). A consumer with a
`try_extract` in flight goes on with it (43_framer.md R131, R132); the producer is free to act meanwhile. -/
def State.takeTurn (s : State) (a : Agent) : Issue :=
  let t := { s with active := a }
  match a with
  | .producer => if t.producerOn then t.fetch .producer else .done t
  | .consumer => if t.inFlight = .idle then t.fetch .consumer else .run .tryExtract (t.note .consumer .tryExtract)

/-- What the first event that waits comes to. With none waiting, nothing happens. Hardware reset is, for the block and for what the parser
reported of it, the same as `RESET` (70_reset_and_hazards.md R170). -/
def State.issue (s : State) : Issue :=
  match s.events with
  | [] => .done s
  | e :: rest =>
    let t := { s with events := rest }
    match e with
    | .turn a => t.takeTurn a
    | .cancel => .done { t with inFlight := .idle }
    | .stopProducer => .done { t with producerOn := false }
    | .hardwareReset => .done { t.clearBlock with report := t.report.noteRemoval }

end Sys2Proof.Machine
end

