-- ==== Sys2Proof/Machine/Step.lean ====
section
/-! DEFINITION. One step of the machine: what the next event comes to, and the operation it runs. There is no program counter and no fetch from
memory (spec/10_state.md R22): the agents issue operations, one step per locked region (20_memory.md R50). -/

namespace Sys2Proof.Machine

/-- One step: the next event (`State.issue`), and the operation it runs. -/
def step (s : State) : Host.Outcome State Fault Refusal :=
  match s.issue with
  | .run i t => exec i t
  | .done t => .next t
  | .refuse r => .refused r

/-- The agent that may issue the operation of a command word, by R77's table; the consumer for a code that selects none. -/
def agentOf (c : Command) : Agent :=
  match decode c with
  | .ok i => if openTo .consumer i then .consumer else .producer
  | .error _ => .consumer

/-- `s` with the command of word `w`, operands of zeros, next to be issued by the agent it is open to: it heads that agent's queue, the
agent's turn is the next event, the producer runs, no `try_extract` is in flight before it, and no report of the parser binds it. -/
def State.withFetchWord (s : State) (_nbits w : Nat) : State :=
  let c := tableCommand w
  let a := agentOf c
  { s.setQueue a (c :: s.queue a) with
    events := .turn a :: s.events
    producerOn := true
    inFlight := .idle
    report := State.reset.report }

end Sys2Proof.Machine
end

