-- ==== Sys2Proof/Safety.lean ====
section
/-! DEFINITION. The terms in which claims about the block are stated: its own state, its invariant, where the marker stands, what a valid frame
is, and the integer readings of the bit-serial rules. -/

namespace Sys2Proof.Machine

/-- The block's own state, "the whole state" of spec/10_state.md R33: the accumulator's content and what is in flight. -/
def blockOf (s : State) : Memory × InFlight := (s.acc, s.inFlight)

/-- What is in flight fits the accumulator: the snapshot "is always a prefix of the current `acc`" (10_state.md R28), and a pending decision is
the parse of its snapshot (43_framer.md R131). -/
abbrev InFlight.fits (cfg : Config) (acc : Memory) : InFlight → Prop
  | .idle => True
  | .viewed view => view <+: acc
  | .decided view d => view <+: acc ∧ d = parse cfg view

/-- What the consumer has seen of the bytes at the front fits the accumulator: each copy "is always a prefix of the current `acc`" (10_state.md
R28); and the list of parsed views is rising. -/
abbrev Report.fits (acc : Memory) (r : Report) : Prop := (∀ v ∈ r.snapshots, v <+: acc) ∧ r.parsed.Pairwise (· < ·)

/-- The invariant of the block: `0 <= size <= C` (R25), and what is in flight and what the consumer has seen (R28) fit. -/
abbrev BlockInv (s : State) : Prop :=
  Memory.wf s.config.capacity s.acc ∧ s.inFlight.fits s.config s.acc ∧ s.report.fits s.acc

/-- The pairs that the table of 30_encoding.md R77 leaves out: `PUT` by the consumer; `PEEK`, `CONSUME`, `RESET`, `TRY_EXTRACT` and `SEND` by
the producer. -/
abbrev OutsideTable (a : Agent) (i : Instr) : Prop :=
  (a = .consumer ∧ ∃ b, i = .put b) ∨
  (a = .producer ∧ ((∃ n, i = .peek n) ∨ (∃ n, i = .consume n) ∨ i = .reset ∨ i = .tryExtract ∨
    ∃ h m k, i = .send h m k))

/-- The consumer has parsed a snapshot, or the first bytes of one, whatever has been removed since. -/
abbrev HasParsed (r : Report) : Prop := ∃ v ∈ r.parsed, ∃ u ∈ r.snapshots ++ r.past, v <+: u

/-- The parser has reported the count `n` to the consumer, of a snapshot (or the first bytes of one) of the bytes now at the front
(42_accumulator.md R116, 70_reset_and_hazards.md R174). -/
abbrev Reported (s : State) (n : Nat) : Prop :=
  ∃ v ∈ s.report.parsed, (∃ u ∈ s.report.snapshots, v <+: u) ∧ (parse s.config v).count = n

/-- A `CONSUME n` within the occupancy, after a parse, that is no count the parser reported of what is at the front (42_accumulator.md R116,
70_reset_and_hazards.md R174). -/
abbrev NotReported (s : State) (n : Nat) (i : Instr) : Prop :=
  i = .consume n ∧ n ≤ s.size ∧ HasParsed s.report ∧ ¬ Reported s n

/-- The consumer's next request is for `i`, and no `try_extract` of its is in flight. -/
abbrev Requests (s : State) (i : Instr) : Prop :=
  s.inFlight = .idle ∧ ∃ c q, s.consumerQueue = c :: q ∧ decode c = .ok i

/-- The consumer's next step parses `view`: by hand, or as T2 of a `try_extract` (43_framer.md R131). -/
abbrev Parses (s : State) (view : Bytes) : Prop := Requests s (.parse view) ∨ s.inFlight = .viewed view

/-- The consumer's next step takes the copy `v` of the first bytes: by `PEEK`, or as T1 of a `try_extract` (43_framer.md R130). -/
abbrev Copies (s : State) (v : Bytes) : Prop :=
  (∃ n, Requests s (.peek n) ∧ v = s.acc.take n) ∨ (Requests s .tryExtract ∧ v = s.acc)

/-- The consumer's next step is a `CONSUME` or a `RESET`: by hand, or as T3 of a `try_extract` (43_framer.md R132). -/
abbrev Removes (s : State) : Prop :=
  (∃ n, Requests s (.consume n)) ∨ Requests s .reset ∨ ∃ view d, s.inFlight = .decided view d ∧ d ≠ .needMoreData

/-- The four marker bytes stand in full inside `b` at offset `k` (30_encoding.md R63). -/
abbrev MarkerAt (b : Bytes) (k : Nat) : Prop := slice b k (k + 4) = [0xEB, 0xCF, 0x79, 0x00]

/-- A frame the parser accepts, and nothing after it: the conditions of 43_framer.md R127 ("sync marker present at offset 0, full header
buffered, `msg_len` within range, the full frame present, and CRC32 matches"), with `msg_len` its length. -/
abbrev ValidFrame (cfg : Config) (f : Bytes) : Prop :=
  MarkerAt f 0 ∧ cfg.msgLenMin ≤ f.length ∧ f.length ≤ cfg.msgLenMax ∧ (le32 f 12).toNat = f.length ∧ crc32 (f.drop 8) = le32 f 4

/-- A message within the limits of 44_encoder.md R141. -/
abbrev WithinLimits (cfg : Config) (uri body : Bytes) : Prop :=
  uri.length ≤ 254 ∧ 21 + uri.length + body.length ≤ cfg.msgLenMax

/-- The operation returns `r` to the agent whose step it is, and changes nothing else: no byte of the accumulator, nothing in flight, no
queue, no frame at TX. -/
abbrev Answers (i : Instr) (s : State) (r : Result) : Prop :=
  exec i s = .next { s with delivered := s.delivered ++ [{ agent := s.active, result := r }] }

/-- `PARSE view` waits, and changes nothing. -/
abbrev Waits (s : State) (view : Bytes) : Prop := Answers (.parse view) s (.decision .needMoreData)

/-- `PARSE view` discards `n` bytes, at least one, and changes nothing. -/
abbrev Discards (s : State) (view : Bytes) (n : Nat) : Prop :=
  ∃ h : 1 ≤ n, Answers (.parse view) s (.decision (.discard n h))

/-- `PARSE view` delivers the packet `p` of `n` bytes, at least 20, and changes nothing. -/
abbrev Delivers (s : State) (view : Bytes) (p : ParsedPacket) (n : Nat) : Prop :=
  ∃ h : 20 ≤ n, Answers (.parse view) s (.decision (.packet p n h))

/-- The results handed to one agent, oldest first. -/
def State.resultsOf (s : State) (a : Agent) : List Result :=
  (s.delivered.filter fun d => d.agent = a).map Delivery.result

/-- The operations that read only their arguments and the parameters (20_memory.md R46, R57). -/
def stateless : Instr → Bool
  | .crc16 _ => true
  | .crc32 _ => true
  | .b64enc _ => true
  | .b64dec _ => true
  | .put _ => false
  | .peek _ => false
  | .consume _ => false
  | .reset => false
  | .parse _ => true
  | .tryExtract => false
  | .encode _ _ _ => true
  | .send _ _ _ => false

/-- Run `n` steps, stopping at the first fault or refusal; `Host.Core.run` of this machine. -/
def run : Nat → State → Host.Outcome State Fault Refusal
  | 0, s => .next s
  | n + 1, s =>
    match step s with
    | .next t => run n t
    | .fault r => .fault r
    | .refused r => .refused r

/-- A consumer's request for `TRY_EXTRACT`. -/
abbrev tryExtractCommand : Command := encode .tryExtract

/-- A consumer's turn. -/
abbrev consumerTurn : Event := .turn .consumer

/-- A producer's turn. -/
abbrev producerTurn : Event := .turn .producer

/-- The CRC16 round of 40_crc.md R91 in integer arithmetic on `0 .. 65535`. -/
def crc16RoundNat (dir : ElseShift) (c : Nat) : Nat :=
  if 32768 ≤ c then (2 * c % 65536) ^^^ 0x1021
  else match dir with
    | .right => c / 2
    | .left => 2 * c

/-- The CRC32 round of 40_crc.md R94 in integer arithmetic on `0 .. 2^32 - 1`. -/
def crc32RoundNat (c : Nat) : Nat :=
  if c % 2 = 1 then (c / 2) ^^^ 0xEDB88320 else c / 2

/-- The standard alphabet as one string, index = value (30_encoding.md R73). -/
def alphabet : Bytes :=
  "ABCDEFGHIJKLMNOPQRSTUVWXYZabcdefghijklmnopqrstuvwxyz0123456789+/".toList.map fun c => BitVec.ofNat 8 c.toNat

/-- The 24-bit number of a group of three bytes, a missing one read as 0 (41_base64.md R101). -/
def encGroupNat (data : Bytes) (g : Nat) : Nat :=
  (byteAt data (3 * g)).toNat * 65536 + (byteAt data (3 * g + 1)).toNat * 256 + (byteAt data (3 * g + 2)).toNat

/-- The value of a character by its place in the alphabet; 0 for the others, `=` among them (30_encoding.md R74). -/
def charValue (c : Byte) : Nat := if c ∈ alphabet then alphabet.idxOf c else 0

/-- The 24-bit number of a group of four characters (41_base64.md R104). -/
def decGroupNat (text : Bytes) (g : Nat) : Nat :=
  charValue (byteAt text (4 * g)) * 262144 + charValue (byteAt text (4 * g + 1)) * 4096
    + charValue (byteAt text (4 * g + 2)) * 64 + charValue (byteAt text (4 * g + 3))

end Sys2Proof.Machine
end

