-- ==== Sys2Proof/Certificates/Slice0/Obligations.lean ====
section
/-! DEFINITION. The statements about the block, for the provers. Each says which part of spec/ it formalises.

Where a statement rests on a decision of the spec itself (92_eei_decisions.md D<n>) or on a log entry of this model, its docstring says so. -/

open Sys2Proof
open Sys2Proof.Machine

/-! ### The step -/

/-- An agent that is to act runs the operation its oldest request decodes to, at the state with the event and the request taken and the agent
and what it has learnt of the front noted (`State.note`, of which `Obligations.ReportFollowsParser` speaks), whatever pair of agent and
operation the table holds; but for a `CONSUME` that is not the parser's. The queue and event form is the model's (log entry 5). -/
def Obligations.StepRunsDecodedOperation : Prop :=
  ∀ (s : State) (a : Agent) (c : Command) (q : List Command) (rest : List Event) (i : Instr),
    s.events = .turn a :: rest → s.queue a = c :: q → decode c = .ok i →
    ¬ OutsideTable a i → (∀ n, ¬ NotReported s n i) →
    (a = .producer → s.producerOn = true) → (a = .consumer → s.inFlight = .idle) →
    step s = exec i (State.note (State.setQueue { s with events := rest, active := a } a q) a i)

/-- The consumer's turn, with a `try_extract` in flight, goes on with it (43_framer.md R131, R132), what the phase tells the consumer of the
front noted (`State.note`, of which `Obligations.ReportFollowsParser` speaks). -/
def Obligations.StepContinuesTryExtract : Prop :=
  ∀ (s : State) (rest : List Event), s.events = consumerTurn :: rest → s.inFlight ≠ .idle →
    step s = exec .tryExtract (State.note { s with events := rest, active := .consumer } .consumer .tryExtract)

/-- A command word `0x00` or `0x0D`..`0xFF` does nothing and returns `Err(ERR_BAD_OP)` (30_encoding.md R78, the spec's decision D2). -/
def Obligations.UnknownCodeReturnsBadOp : Prop :=
  ∀ (s : State) (a : Agent) (c : Command) (q : List Command) (rest : List Event),
    s.events = .turn a :: rest → s.queue a = c :: q → (c.op = 0 ∨ 0x0D ≤ c.op.toNat) →
    (a = .producer → s.producerOn = true) → (a = .consumer → s.inFlight = .idle) →
    step s = .next { (State.setQueue { s with events := rest, active := a } a q) with
      delivered := s.delivered ++ [{ agent := a, result := .err .badOp }] }

/-- A step is refused exactly for the request whose turn it is, and exactly when the table of 30_encoding.md R77 does not open it to the agent
(the treatment `refuse` is 93_implementation_defined.md U14's, log entry 7), or when it is a `CONSUME` that is not the parser's (U2, log
entry 9; that this takes in one that follows no new parse since a `CONSUME` or `RESET` is the model's choice, same entry). The queue and event form is the model's (log entry 5). -/
def Obligations.SecondProducerOrConsumerIsRefused : Prop :=
  (∀ (s : State) (r : Refusal), step s = .refused r →
    ∃ (a : Agent) (c : Command) (q : List Command) (rest : List Event) (i : Instr),
      s.events = .turn a :: rest ∧ s.queue a = c :: q ∧ decode c = .ok i ∧
      ((OutsideTable a i ∧ r = .notOpenToAgent a i) ∨
        (a = .consumer ∧ ∃ n, NotReported s n i ∧ r = .consumeNotReported n))) ∧
  (∀ (s : State) (a : Agent) (c : Command) (q : List Command) (rest : List Event) (i : Instr),
    s.events = .turn a :: rest → s.queue a = c :: q → decode c = .ok i →
    (a = .producer → s.producerOn = true) → (a = .consumer → s.inFlight = .idle) →
    (OutsideTable a i → step s = .refused (.notOpenToAgent a i)) ∧
    (∀ n, a = .consumer → NotReported s n i → step s = .refused (.consumeNotReported n)))

/-- "if it stops between T1 and T3 of a `try_extract` the decision is simply not applied and the bytes stay", and nothing else changes,
wherever the consumer stops (70_reset_and_hazards.md R173). That the snapshot is dropped and both queues stay is the model's choice (log entry
10), and so is the event form (log entry 5). -/
def Obligations.CancellationLeavesBytes : Prop :=
  ∀ (s : State) (rest : List Event), s.events = .cancel :: rest →
    step s = .next { s with events := rest, inFlight := .idle }

/-- Hardware reset and the `RESET` operation leave the same block: the accumulator empty, nothing in flight; neither reaches beyond it
(70_reset_and_hazards.md R170 and 10_state.md R33, the spec's decision D21), but that the consumer's snapshots are of bytes no longer at
the front (R174, log entry 9). -/
def Obligations.HardwareResetEqualsReset : Prop :=
  (∀ (s : State) (rest : List Event), s.events = .hardwareReset :: rest →
    step s = .next { s with events := rest, acc := [], inFlight := .idle, report := s.report.noteRemoval }) ∧
  (∀ s : State, ∃ t, exec .reset s = .next t ∧ blockOf t = ([], .idle)) ∧
  blockOf State.reset = ([], .idle)

/-- The stop of the producer stops it and does nothing else; whatever happens after it, the producer issues nothing more: no result goes to
it, no byte is appended, and it stays stopped (70_reset_and_hazards.md R172). That it keeps its queue and is not started again is the
model's choice (log entry 10), and so is the event form (log entry 5). -/
def Obligations.StoppedProducerIssuesNothing : Prop :=
  (∀ (s : State) (rest : List Event), s.events = .stopProducer :: rest →
    step s = .next { s with events := rest, producerOn := false }) ∧
  (∀ (n : Nat) (s t : State), s.producerOn = false → run n s = .next t →
    t.producerOn = false ∧ t.resultsOf .producer = s.resultsOf .producer ∧
      t.producerQueue = s.producerQueue ∧ t.acc <:+ s.acc)

/-- No run changes a parameter: "nothing in it is programmable at run time" (10_state.md R24). -/
def Obligations.RunKeepsParameters : Prop :=
  ∀ (n : Nat) (s t : State), run n s = .next t → t.config = s.config

/-! ### Encoding of commands -/

/-- The twelve command words of the table (30_encoding.md R77, the spec's decision D2), each to its operation, and two that select none. -/
def Obligations.TableWordsDecode : Prop :=
  decode { op := 0b00000001, operands := { data := [0x41] } } = .ok (.crc16 [0x41]) ∧
  decode { op := 0b00000010, operands := { data := [0x42] } } = .ok (.crc32 [0x42]) ∧
  decode { op := 0b00000011, operands := { data := [0x66] } } = .ok (.b64enc [0x66]) ∧
  decode { op := 0b00000100, operands := { data := [0x51, 0x51, 0x3D, 0x3D] } } = .ok (.b64dec [0x51, 0x51, 0x3D, 0x3D]) ∧
  decode { op := 0b00000101, operands := { data := [1, 2] } } = .ok (.put [1, 2]) ∧
  decode { op := 0b00000110, operands := { num := 3 } } = .ok (.peek 3) ∧
  decode { op := 0b00000111, operands := { num := 5 } } = .ok (.consume 5) ∧
  decode { op := 0b00001000 } = .ok .reset ∧
  decode { op := 0b00001001, operands := { data := [0xEB] } } = .ok (.parse [0xEB]) ∧
  decode { op := 0b00001011, operands := { data := [0x2F], body := [0x7B], num := 7 } } = .ok (.encode [0x2F] [0x7B] 7) ∧
  decode { op := 0b00001100, operands := { data := [0x2F], body := [0x7B], num := 7, handle := { name := 9 } } } =
    .ok (.send { name := 9 } { uri := [0x2F], body := [0x7B] } 7) ∧
  decode { op := 0b00001010 } = .ok .tryExtract ∧ decodeTableWord 8 0b00001010 = some .tryExtract ∧ decodeTableWord 8 0x00 = none ∧ decodeTableWord 8 0x0D = none

/-- Every operation's command decodes to it, with every operand at every value; and a command word is an operation's exactly when it is one of
`0x01`..`0x0C` (30_encoding.md R77, R78). The four operand places are the model's (log entry 4). -/
def Obligations.DecodeEncodeAgree : Prop :=
  (∀ i : Instr, decode (encode i) = .ok i) ∧
  (∀ c : Command, (∃ i, decode c = .ok i) ↔ 1 ≤ c.op.toNat ∧ c.op.toNat ≤ 12) ∧
  (∀ (c : Command) (i : Instr), decode c = .ok i → (encode i).op = c.op)

/-! ### Reset, invariant, stops -/

/-- After hardware reset the block is empty and nothing is in flight (10_state.md R33, the spec's decision D21), and the parameters are the
source's values (00_scope.md R7), `CRC16_ELSE_SHIFT = RIGHT` (R8); `C` is the model's choice (log entry 2), stated only as R8 bounds it. -/
def Obligations.ResetBlockIsEmpty : Prop :=
  State.reset.acc = [] ∧ State.reset.size = 0 ∧ State.reset.inFlight = .idle ∧
  State.reset.config.garbageCeiling = 4000 ∧ State.reset.config.msgLenMax = 400000 ∧
  State.reset.config.msgLenMin = 20 ∧ State.reset.config.crc16ElseShift = .right ∧ State.reset.config.Sized

/-- The invariant of 10_state.md R25 and R28, with what the consumer has seen (log entry 9), holds at reset. -/
def Obligations.ResetMeetsInvariant : Prop := BlockInv State.reset

/-- Every step keeps the invariant: `size <= C` (10_state.md R25), the snapshot in flight is a prefix of the accumulator, a pending
decision is the parse of its snapshot (R28), and each copy of the bytes at the front that the consumer has taken is a prefix of the accumulator
(the report is the model's form, log entry 9), whichever agent acts, and whatever else happens. -/
def Obligations.StepKeepsBlockInvariant : Prop :=
  ∀ s t : State, BlockInv s → step s = .next t → BlockInv t

/-- An operation faults exactly when `PEEK` or `CONSUME` is asked for more than `size`, or a decision to be applied counts more than
`size` (60_exceptions.md R165, the spec's decision D8); and none is refused. -/
def Obligations.FaultExactlyBeyondSize : Prop :=
  (∀ (i : Instr) (s : State) (f : Fault), exec i s = .fault f ↔
    (∃ n, i = .peek n ∧ s.size < n ∧ f = .peekBeyondSize) ∨
    (∃ n, i = .consume n ∧ s.size < n ∧ f = .consumeBeyondSize) ∨
    (i = .tryExtract ∧ (∃ v d, s.inFlight = .decided v d ∧ s.size < d.count) ∧ f = .consumeBeyondSize)) ∧
  (∀ (i : Instr) (s : State) (r : Refusal), exec i s ≠ .refused r)

/-- The `CONSUME` of a `try_extract` cannot fault (43_framer.md R132): in a state that meets the invariant, a step faults only for a `PEEK n`
or `CONSUME n` the consumer itself issues with `n > size`. -/
def Obligations.TryExtractNeverFaults : Prop :=
  ∀ (s : State) (f : Fault), BlockInv s → step s = .fault f →
    ∃ (n : Nat) (t : State), s.size < n ∧ (s.issue = .run (.peek n) t ∨ s.issue = .run (.consume n) t)

/-- An error changes no state of the block (60_exceptions.md R150, R157; 00_scope.md R12): an operation that returns `Err` leaves all as it
was, but that a failed `SEND` has passed its frame to the transport. -/
def Obligations.ErrorChangesNoState : Prop :=
  ∀ (i : Instr) (s t : State) (e : ErrorCode), exec i s = .next t →
    t.delivered = s.delivered ++ [{ agent := s.active, result := .err e }] →
    t = { s with delivered := t.delivered, tx := t.tx, writeReplies := t.writeReplies } ∧
    (e ≠ .transport → t.tx = s.tx ∧ t.writeReplies = s.writeReplies)

/-- The CRC, Base64, parse and encode operations complete in every state, read only their arguments and the parameters, and change no state
(20_memory.md R46, R57). -/
def Obligations.StatelessOperationsReadOnlyArguments : Prop :=
  ∀ i : Instr, stateless i = true → ∃ r : Config → Result, ∀ s : State, Answers i s (r s.config)

/-- The numbers of the error codes (60_exceptions.md R150, the spec's decision D28). -/
def Obligations.ErrorNumbers : Prop :=
  [ErrorCode.capacity, .b64Length, .fieldRange, .transport, .badOp].map ErrorCode.number = [1, 2, 3, 4, 5]

/-! ### The accumulator -/

/-- `PUT` of a chunk that fits appends it whole at offset `size` and returns `Ok`; no byte before it changes, no other state does
(42_accumulator.md R111). -/
def Obligations.PutAppendsWholeChunk : Prop :=
  ∀ (s : State) (bytes : Bytes), s.size + bytes.length ≤ s.config.capacity →
    ∃ t, exec (.put bytes) s = .next t ∧
      t = { s with
        acc := s.acc ++ bytes
        delivered := s.delivered ++ [{ agent := s.active, result := .ok }] } ∧
      t.size = s.size + bytes.length ∧
      (∀ a < s.size, t.readByte a = s.readByte a) ∧
      (∀ j < bytes.length, t.readByte (s.size + j) = bytes[j]?)

/-- `PUT` of a chunk that would exceed the capacity keeps no byte of it and returns `Err(ERR_CAPACITY)` (42_accumulator.md R111, the spec's
decision D7). -/
def Obligations.PutBeyondCapacityKeepsNothing : Prop :=
  ∀ (s : State) (bytes : Bytes), s.config.capacity < s.size + bytes.length →
    Answers (.put bytes) s (.err .capacity)

/-- `PEEK n` with `n <= size` returns the first `n` bytes and changes nothing, so a second one returns the same; with `n > size` it is the
fault, never a short view (42_accumulator.md R112, the spec's decision D8). -/
def Obligations.PeekReadsFront : Prop :=
  ∀ (s : State) (n : Nat),
    (n ≤ s.size → ∃ view, view.length = n ∧ view <+: s.acc ∧ Answers (.peek n) s (.bytes view) ∧
      Answers (.peek n) { s with delivered := s.delivered ++ [{ agent := s.active, result := .bytes view }] } (.bytes view)) ∧
    (s.size < n → exec (.peek n) s = .fault .peekBeyondSize)

/-- `CONSUME n` with `n <= size` removes exactly the `n` oldest bytes: the byte that was at offset `n + a` is at `a`; with `n > size` it is
the fault (42_accumulator.md R114, the spec's decision D8). -/
def Obligations.ConsumeRemovesFront : Prop :=
  ∀ (s : State) (n : Nat),
    (n ≤ s.size → ∃ t, exec (.consume n) s = .next t ∧
      t = { s with
        acc := t.acc
        delivered := s.delivered ++ [{ agent := s.active, result := .ok }] } ∧
      t.size = s.size - n ∧ ∀ a, t.readByte a = s.readByte (n + a)) ∧
    (s.size < n → exec (.consume n) s = .fault .consumeBeyondSize)

/-- `RESET` empties the buffer and returns `Ok`; it does not touch the transport (42_accumulator.md R115). What it leaves in flight is said by
`Obligations.HardwareResetEqualsReset`. -/
def Obligations.ResetEmptiesBuffer : Prop :=
  ∀ s : State, ∃ t, exec .reset s = .next t ∧ t.size = 0 ∧
    t = { s with
      acc := []
      inFlight := t.inFlight
      delivered := s.delivered ++ [{ agent := s.active, result := .ok }] }

/-- "It is the only way the producer touches the accumulator. Its result is the result of the `PUT`" (42_accumulator.md R113): a producer's
step on a `PUT` is that `PUT`; a producer's step that changes the accumulator is one; and a producer's step on anything else does not read
the accumulator either, since with another content it goes the same way. The queue and event form is the model's (log entry 5). -/
def Obligations.ProducerTouchesOnlyByFeed : Prop :=
  (∀ (s : State) (bytes : Bytes) (q : List Command) (rest : List Event),
    s.events = producerTurn :: rest → s.producerOn = true → s.producerQueue = encode (.put bytes) :: q →
    step s = exec (.put bytes) { s with events := rest, active := .producer, producerQueue := q }) ∧
  (∀ (s t : State) (rest : List Event), s.events = producerTurn :: rest → step s = .next t → t.acc ≠ s.acc →
    ∃ c q bytes, s.producerQueue = c :: q ∧ decode c = .ok (.put bytes) ∧ t.acc = s.acc ++ bytes) ∧
  (∀ (s : State) (rest : List Event) (other : Bytes), s.events = producerTurn :: rest →
    (∀ c q bytes, s.producerQueue = c :: q → decode c ≠ .ok (.put bytes)) →
    (∀ f, step s ≠ .fault f) ∧ (∀ r, step s = .refused r → step { s with acc := other } = .refused r) ∧
    (∀ t, step s = .next t → t.acc = s.acc ∧ step { s with acc := other } = .next { t with acc := other }))

/-- Bytes are appended at the tail and leave from the front: a producer's step appends some chunk and leaves the consumer's snapshot alone; a
consumer's step removes some count from the front (20_memory.md R50, R51; 10_state.md R28). -/
def Obligations.AppendAtTailRemoveAtFront : Prop :=
  ∀ (s t : State) (rest : List Event), step s = .next t →
    (s.events = producerTurn :: rest → (∃ chunk, t.acc = s.acc ++ chunk) ∧ t.inFlight = s.inFlight) ∧
    (s.events = consumerTurn :: rest → ∃ n, t.acc = s.acc.drop n)

/-! ### The checksums -/

/-- `CRC16 data`, in integers: from `0xFFFF`, each byte XORed in times 256, then eight rounds, for either `CRC16_ELSE_SHIFT`
(40_crc.md R91, the spec's decisions D3, D4). -/
def Obligations.Crc16InIntegers : Prop :=
  ∀ (s : State) (data : Bytes), ∃ v : U16, Answers (.crc16 data) s (.u16 v) ∧
    v.toNat = data.foldl
      (fun c b => Nat.repeat (crc16RoundNat s.config.crc16ElseShift) 8 (c ^^^ (b.toNat * 256))) 0xFFFF

/-- `CRC32 data`, in integers: from `0xFFFFFFFF`, each byte XORed in, then eight rounds, complemented at the end (40_crc.md R94; the loop body is
the spec's decision D5). -/
def Obligations.Crc32InIntegers : Prop :=
  ∀ (s : State) (data : Bytes), ∃ v : U32, Answers (.crc32 data) s (.u32 v) ∧
    v.toNat = (data.foldl (fun c b => Nat.repeat crc32RoundNat 8 (c ^^^ b.toNat)) 0xFFFFFFFF) ^^^ 0xFFFFFFFF

/-! ### Base64 -/

/-- `B64ENC` of `n` bytes gives `4 * ceil(n / 3)` characters, the last `pad` of them `=`, with `pad` from the table `{0, 2, 1}`
(41_base64.md R100). -/
def Obligations.Base64TextLengthAndPad : Prop :=
  ∀ (s : State) (data : Bytes), ∃ text : Bytes, Answers (.b64enc data) s (.bytes text) ∧
    text.length = 4 * ((data.length + 2) / 3) ∧
    text.drop (text.length - [0, 2, 1].getD (data.length % 3) 0) =
      List.replicate ([0, 2, 1].getD (data.length % 3) 0) 0x3D

/-- Each character of `B64ENC` that is no pad is the alphabet's character of its sextet of the 24-bit group, the first from bits 23..18
(41_base64.md R101, 30_encoding.md R73; alphabet and bit positions are the spec's K1, K2). -/
def Obligations.Base64CharactersOfSextets : Prop :=
  ∀ (s : State) (data : Bytes), ∃ text : Bytes, Answers (.b64enc data) s (.bytes text) ∧
    ∀ k < text.length - [0, 2, 1].getD (data.length % 3) 0,
      byteAt text k = alphabet.getD (encGroupNat data (k / 4) / 64 ^ (3 - k % 4) % 64) 0

/-- "`B64DEC text` with `len(text) % 4 != 0` returns `Err(ERR_B64_LENGTH)` and produces no output byte"; "It is the only input the decoder
refuses" (41_base64.md R103). -/
def Obligations.Base64RefusesOnlyBadLength : Prop :=
  ∀ (s : State) (text : Bytes),
    (text.length % 4 ≠ 0 → Answers (.b64dec text) s (.err .b64Length)) ∧
    (text.length % 4 = 0 → ∃ data, Answers (.b64dec text) s (.bytes data))

/-- `B64DEC` of a text of legal length: `m / 4 * 3 - pad` bytes, each from its place in the 24-bit group of four characters, unknown and pad
characters counting 0; `pad` is the final run of `=`, capped at 2 (41_base64.md R104, R106; the spec's decision D17). -/
def Obligations.Base64BytesOfGroups : Prop :=
  ∀ (s : State) (text : Bytes), text.length % 4 = 0 →
    ∃ data : Bytes, Answers (.b64dec text) s (.bytes data) ∧
      data.length = text.length / 4 * 3 - min 2 (text.reverse.takeWhile fun c => c = 0x3D).length ∧
      ∀ k < data.length, (byteAt data k).toNat = decGroupNat text (k / 3) / 256 ^ (2 - k % 3) % 256

/-- "for all byte lengths 0..N, `decode(encode(bytes)) == bytes`" (41_base64.md R107, which the spec derives from R101 and R104). -/
def Obligations.Base64RoundTrip : Prop :=
  ∀ (s : State) (data : Bytes), ∃ text : Bytes,
    Answers (.b64enc data) s (.bytes text) ∧ Answers (.b64dec text) s (.bytes data)

/-! ### The parser -/

/-- `PARSE` answers every view with one of the three decisions and changes no state, whoever calls it and whatever the accumulator holds
(43_framer.md R120); every count it answers is at least 1 and at most `len(view)`, a packet's at least 20 and at most `MSG_LEN_MAX`
(R129, 30_encoding.md R75). -/
def Obligations.ParseCountsWithinView : Prop :=
  ∀ (s : State) (view : Bytes), ∃ d : Decision, Answers (.parse view) s (.decision d) ∧
    (∀ n h, d = .discard n h → 1 ≤ n ∧ n ≤ view.length) ∧
    (∀ p n h, d = .packet p n h →
      20 ≤ n ∧ s.config.msgLenMin ≤ n ∧ n ≤ view.length ∧ n ≤ s.config.msgLenMax)

/-- Check 1 (43_framer.md R121): fewer than 4 bytes wait, whatever they are. -/
def Obligations.ShortViewWaits : Prop :=
  ∀ (s : State) (view : Bytes), view.length < 4 → Waits s view

/-- Check 2 (43_framer.md R122, the spec's decision D10): no marker, above the ceiling, the whole window goes; no marker, at most the ceiling,
wait; the first marker at `K > 0`, the `K` bytes before it go, whatever follows. -/
def Obligations.SyncSearch : Prop :=
  ∀ (s : State) (view : Bytes), 4 ≤ view.length →
    ((∀ j, ¬ MarkerAt view j) → s.config.garbageCeiling < view.length →
      Discards s view view.length) ∧
    ((∀ j, ¬ MarkerAt view j) → view.length ≤ s.config.garbageCeiling → Waits s view) ∧
    (∀ k, 0 < k → MarkerAt view k → (∀ j < k, ¬ MarkerAt view j) → Discards s view k)

/-- Check 3 (43_framer.md R123): marker at offset 0, fewer than 20 bytes, wait; so for the first 19 bytes of any valid frame. -/
def Obligations.IncompleteHeaderWaits : Prop :=
  (∀ (s : State) (view : Bytes), MarkerAt view 0 → view.length < 20 → Waits s view) ∧
  (∀ (s : State) (f : Bytes), ValidFrame s.config f → Waits s (f.take 19))

/-- Check 4 (43_framer.md R124): a declared length below 20 (below `MSG_LEN_MIN`, which is 20 by default, 00_scope.md R7) or above
`MSG_LEN_MAX` discards exactly 1 byte, complete or not, after which this marker is not found again; both ends of the range pass: an
incomplete frame waits, and a complete one whose checksum matches is delivered. R124 prints 20; that the lower end is the parameter is the
model's inference (log entry 3, with R7 and the spec's decision D20). -/
def Obligations.InsaneLengthDiscardsOne : Prop :=
  ∀ (s : State) (view : Bytes), MarkerAt view 0 → 20 ≤ view.length →
    (((le32 view 12).toNat < 20 ∨ (le32 view 12).toNat < s.config.msgLenMin ∨ s.config.msgLenMax < (le32 view 12).toNat) →
      Discards s view 1 ∧ ¬ MarkerAt (view.drop 1) 0) ∧
    (s.config.msgLenMin ≤ (le32 view 12).toNat → (le32 view 12).toNat ≤ s.config.msgLenMax →
      (view.length < (le32 view 12).toNat → Waits s view) ∧
      ((le32 view 12).toNat ≤ view.length → crc32 (slice view 8 (le32 view 12).toNat) = le32 view 4 →
        ∃ p, Delivers s view p (le32 view 12).toNat))

/-- Check 5 (43_framer.md R125): a sane length not all present waits; bytes beyond `msg_len`, when all of it is there, are not looked at. -/
def Obligations.IncompleteFrameWaits : Prop :=
  ∀ (s : State) (view : Bytes), MarkerAt view 0 → 20 ≤ view.length →
    s.config.msgLenMin ≤ (le32 view 12).toNat → (le32 view 12).toNat ≤ s.config.msgLenMax →
    (view.length < (le32 view 12).toNat → Waits s view) ∧
    ((le32 view 12).toNat ≤ view.length → ∃ d, Answers (.parse view) s (.decision d) ∧
      ∀ more, Answers (.parse (view.take (le32 view 12).toNat ++ more)) s (.decision d))

/-- Check 6 (43_framer.md R126): the full frame present and CRC32 over `[8, msg_len)` different from the stored one, exactly 1 byte is
discarded; the window is never empty. -/
def Obligations.BadChecksumDiscardsOne : Prop :=
  ∀ (s : State) (view : Bytes), MarkerAt view 0 → 20 ≤ view.length →
    s.config.msgLenMin ≤ (le32 view 12).toNat → (le32 view 12).toNat ≤ s.config.msgLenMax →
    (le32 view 12).toNat ≤ view.length → crc32 (slice view 8 (le32 view 12).toNat) ≠ le32 view 4 →
    Discards s view 1 ∧ 12 ≤ (slice view 8 (le32 view 12).toNat).length

/-- The packet of an accepted frame, with anything behind it (43_framer.md R127; clamps and `cstr` are the spec's decisions D12, D13):
`consumed = msg_len`, the URI and the body cut at the received `head_len` and `uri_len`, clamped to the frame, each up to its first
`0x00`, `type` and `serial` copied. -/
def Obligations.ValidFrameIsDelivered : Prop :=
  ∀ (s : State) (f more : Bytes), ValidFrame s.config f →
    ∃ p : ParsedPacket, Delivers s (f ++ more) p f.length ∧
      (let us := min (byteAt f 10).toNat f.length
       let ue := min ((byteAt f 10).toNat + (byteAt f 11).toNat) f.length
       p.uri = ((f.take ue).drop us).takeWhile (· != 0) ∧ p.body = (f.drop ue).takeWhile (· != 0)) ∧
      p.type = byteAt f 18 ∧ p.serial.toNat = (byteAt f 16).toNat + 256 * (byteAt f 17).toNat

/-- `head_crc16` is not validated (43_framer.md R128, the spec's decision D26): whatever stands in bytes 8 and 9 of a valid frame, with
`msg_crc32` computed over it, the frame is delivered with the same count, `type` and `serial`, and as the same packet unless its `head_len`
is so small that the URI window covers the checksums. -/
def Obligations.HeadCrc16NotValidated : Prop :=
  ∀ (s : State) (f : Bytes) (h : U16), ValidFrame s.config f →
    ∃ p p' : ParsedPacket, Delivers s f p f.length ∧
      Delivers s (f.take 4 ++ putLe32 (crc32 (putLe16 h ++ f.drop 10)) ++ putLe16 h ++ f.drop 10) p' f.length ∧
      p'.type = p.type ∧ p'.serial = p.serial ∧ (10 ≤ (byteAt f 10).toNat → p' = p)

/-- A full accumulator never waits (70_reset_and_hazards.md R178): with R8's constraint on `C`, three turns of the consumer free at least one
byte. -/
def Obligations.FullAccumulatorFreesBytes : Prop :=
  ∀ (s : State) (q : List Command) (rest : List Event),
    s.config.Sized → 20 ≤ s.config.msgLenMax → s.size = s.config.capacity →
    s.inFlight = .idle → s.consumerQueue = tryExtractCommand :: q →
    s.events = consumerTurn :: consumerTurn :: consumerTurn :: rest →
    ∃ t, run 3 s = .next t ∧ t.size < s.size ∧ t.inFlight = .idle

/-! ### TRY_EXTRACT -/

/-- `TRY_EXTRACT` takes its three phases one step each (43_framer.md R130 to R132): the snapshot is the whole content (the spec's decision D9),
the parse touches nothing else, the decision's count leaves the front and the decision is returned. -/
def Obligations.TryExtractPhases : Prop :=
  ∀ s : State,
    (s.inFlight = .idle → exec .tryExtract s = .next { s with inFlight := .viewed s.acc }) ∧
    (∀ view, s.inFlight = .viewed view →
      ∃ d, Answers (.parse view) s (.decision d) ∧ exec .tryExtract s = .next { s with inFlight := .decided view d }) ∧
    (∀ view d, s.inFlight = .decided view d → d.count ≤ s.size →
      exec .tryExtract s = .next { s with
        acc := s.acc.drop d.count
        inFlight := .idle
        delivered := s.delivered ++ [{ agent := s.active, result := .decision d }] })

/-- A `try_extract` with any accepted feeds between its phases (43_framer.md R130 to R133, 70_reset_and_hazards.md R180): it decides as if it
had parsed at T1, all bytes fed meanwhile stay behind, and every feed is answered `Ok`. -/
def Obligations.InterleavedTryExtract : Prop :=
  ∀ (s : State) (chunks1 chunks2 : List Bytes) (pq cq : List Command) (rest : List Event),
    s.inFlight = .idle → s.producerOn = true →
    s.size + (chunks1 ++ chunks2).flatten.length ≤ s.config.capacity →
    s.producerQueue = (chunks1 ++ chunks2).map (fun b => encode (.put b)) ++ pq →
    s.consumerQueue = tryExtractCommand :: cq →
    s.events = consumerTurn :: List.replicate chunks1.length producerTurn
      ++ consumerTurn :: List.replicate chunks2.length producerTurn ++ consumerTurn :: rest →
    ∃ (t : State) (d : Decision), Answers (.parse s.acc) s (.decision d) ∧
      run (chunks1.length + chunks2.length + 3) s = .next t ∧
      t.acc = s.acc.drop d.count ++ (chunks1 ++ chunks2).flatten ∧ t.inFlight = .idle ∧
      t.resultsOf .consumer = s.resultsOf .consumer ++ [.decision d] ∧
      t.resultsOf .producer = s.resultsOf .producer ++ List.replicate (chunks1.length + chunks2.length) .ok

/-- Resynchronisation under noise (43_framer.md R134): garbage before a valid frame, with no marker starting inside it, is first reported
`Discard{len(garbage)}`, then the frame as a packet, and the accumulator is empty. -/
def Obligations.ResyncUnderNoise : Prop :=
  ∀ (s : State) (garbage f : Bytes) (q : List Command) (rest : List Event),
    garbage ≠ [] → ValidFrame s.config f → (∀ k < garbage.length, ¬ MarkerAt (garbage ++ f) k) →
    s.acc = garbage ++ f → s.inFlight = .idle →
    s.consumerQueue = tryExtractCommand :: tryExtractCommand :: q →
    s.events = List.replicate 6 consumerTurn ++ rest →
    ∃ (t : State) (p : ParsedPacket) (hg : 1 ≤ garbage.length) (hf : 20 ≤ f.length), Delivers s f p f.length ∧
      run 6 s = .next t ∧ t.acc = [] ∧
      t.delivered = s.delivered ++
        [{ agent := .consumer, result := .decision (.discard garbage.length hg) },
         { agent := .consumer, result := .decision (.packet p f.length hf) }]

/-- Corruption recovery (43_framer.md R135): any change of one byte of a valid frame, in the stored CRC32 or in the window it covers, outside
the four bytes of `msg_len`, discards exactly 1 byte, whatever follows the frame. -/
def Obligations.CorruptByteDiscardsOne : Prop :=
  ∀ (s : State) (before after more : Bytes) (x y : Byte),
    ValidFrame s.config (before ++ x :: after) → x ≠ y → 4 ≤ before.length →
    ¬ (12 ≤ before.length ∧ before.length < 16) →
    Discards s (before ++ y :: after ++ more) 1

/-- The exception of 43_framer.md R135 (90_conflicts.md C3): a change in a byte of `msg_len` discards 1 byte when the new length is insane,
waits when it is sane and larger than what is there, and when it is sane and smaller discards 1 byte unless the shorter window happens to
match, which is then delivered. -/
def Obligations.CorruptLengthWaitsOrDiscards : Prop :=
  ∀ (s : State) (before after : Bytes) (x y : Byte),
    ValidFrame s.config (before ++ x :: after) → x ≠ y → 12 ≤ before.length → before.length < 16 →
    (let view := before ++ y :: after
     let m := (le32 view 12).toNat
     m ≠ view.length ∧
     ((m < s.config.msgLenMin ∨ s.config.msgLenMax < m) → Discards s view 1) ∧
     (s.config.msgLenMin ≤ m → m ≤ s.config.msgLenMax →
       (view.length < m → Waits s view) ∧
       (m < view.length → crc32 (slice view 8 m) ≠ le32 view 4 → Discards s view 1) ∧
       (m < view.length → crc32 (slice view 8 m) = le32 view 4 → ∃ p, Delivers s view p m)))

/-- Partial delivery (43_framer.md R136): a valid frame fed into an empty accumulator in any chunks, with a `try_extract` after each, yields
`NeedMoreData` until the last, then exactly the packet of the whole frame. -/
def Obligations.PartialDelivery : Prop :=
  ∀ (s : State) (f : Bytes) (chunks : List Bytes),
    ValidFrame s.config f → chunks.flatten = f → [] ∉ chunks → f.length ≤ s.config.capacity →
    s.acc = [] → s.inFlight = .idle → s.producerOn = true →
    s.producerQueue = chunks.map (fun b => encode (.put b)) →
    s.consumerQueue = List.replicate chunks.length tryExtractCommand →
    s.events = (List.replicate chunks.length [producerTurn, consumerTurn, consumerTurn, consumerTurn]).flatten →
    ∃ (t : State) (p : ParsedPacket) (hf : 20 ≤ f.length), Delivers s f p f.length ∧
      run (4 * chunks.length) s = .next t ∧ t.acc = [] ∧ t.inFlight = .idle ∧
      t.resultsOf .consumer = s.resultsOf .consumer
        ++ List.replicate (chunks.length - 1) (.decision .needMoreData) ++ [.decision (.packet p f.length hf)]

/-! ### The encoder -/

/-- The frame `ENCODE` returns, field by field (30_encoding.md R62, with the layout of R60 and R61): both checksums over the windows of the
frame itself. `msg_len` is a u32 (R61), hence the bound on the parameter `MSG_LEN_MAX`. -/
def Obligations.EncodedFrameFields : Prop :=
  ∀ (s : State) (uri body : Bytes) (sequence : Nat), WithinLimits s.config uri body → s.config.msgLenMax < 2 ^ 32 →
    ∃ f : Bytes, Answers (.encode uri body sequence) s (.bytes f) ∧
      f.length = 20 + (uri.length + 1) + body.length ∧
      slice f 0 4 = [0xEB, 0xCF, 0x79, 0x00] ∧ le32 f 0 = 0x0079CFEB ∧
      le32 f 4 = crc32 (slice f 8 f.length) ∧
      le16 f 8 = crc16 s.config.crc16ElseShift (slice f 12 20) ∧
      (byteAt f 10).toNat = 20 ∧ (byteAt f 11).toNat = uri.length + 1 ∧
      (le32 f 12).toNat = f.length ∧ (le16 f 16).toNat = sequence % 65536 ∧
      byteAt f 18 = 0 ∧ byteAt f 19 = 1 ∧
      slice f 20 (20 + uri.length) = uri ∧ byteAt f (20 + uri.length) = 0 ∧
      slice f (21 + uri.length) f.length = body

/-- Beyond the limits `ENCODE` and `SEND` build nothing and return `Err(ERR_FIELD_RANGE)`, before any write (44_encoder.md R141 and
60_exceptions.md R156, the spec's decision D15). -/
def Obligations.FieldRangeIsRefused : Prop :=
  ∀ (s : State) (handle : Handle) (uri body : Bytes) (sequence : Nat),
    (254 < uri.length ∨ s.config.msgLenMax < 20 + (uri.length + 1) + body.length) →
    Answers (.encode uri body sequence) s (.err .fieldRange) ∧
    Answers (.send handle { uri := uri, body := body } sequence) s (.err .fieldRange)

/-- Round trip between encoder and parser (44_encoder.md R143): for every null-free URI and body within the limits, with either value of
`CRC16_ELSE_SHIFT` on either side; `msg_len` is a u32 (30_encoding.md R61), hence the bound on the parameter `MSG_LEN_MAX`; and `MSG_LEN_MIN`, 20 by
default (00_scope.md R7), does not shut the frame out. -/
def Obligations.EncodeThenParse : Prop :=
  ∀ (s : State) (uri body : Bytes) (sequence : Nat) (dir : ElseShift),
    WithinLimits s.config uri body → s.config.msgLenMax < 2 ^ 32 →
    s.config.msgLenMin ≤ 21 + uri.length + body.length → 0 ∉ uri → 0 ∉ body →
    ∃ f : Bytes, Answers (.encode uri body sequence) s (.bytes f) ∧
      Delivers { s with config := { s.config with crc16ElseShift := dir } } f
        { uri := uri, body := body, type := 0, serial := BitVec.ofNat 16 sequence } (21 + uri.length + body.length)

/-- `SEND` hands the frame of `ENCODE`, with the handle, to the transport and returns the transport's count as it is, short or not, or `Err(ERR_TRANSPORT)`; the
accumulator and what is in flight are untouched (44_encoder.md R144, the spec's decision D24). The answer is the first that waits; with none
waiting it is a free value (log entry 6), and the statement holds whatever it is. -/
def Obligations.SendReturnsTransportAnswer : Prop :=
  ∀ (s : State) (handle : Handle) (uri body : Bytes) (sequence : Nat), WithinLimits s.config uri body →
    ∃ (f : Bytes) (r : WriteReply), Answers (.encode uri body sequence) s (.bytes f) ∧
      (∀ r' rs, s.writeReplies = r' :: rs → r = r') ∧
      exec (.send handle { uri := uri, body := body } sequence) s = .next { s with
        tx := s.tx ++ [{ handle := handle, frame := f, reply := r }]
        writeReplies := s.writeReplies.drop 1
        delivered := s.delivered ++ [{ agent := s.active, result :=
          match r with
          | .wrote count => .count count
          | .failed => .err .transport }] }

/-! ### What the parser reported, and the consumer's `CONSUME` -/

/-- A consumer's `CONSUME` of a count within the occupancy that follows no parse of a snapshot, or of a count the parser reported of a snapshot of
what is at the front, removes exactly that count (42_accumulator.md R114, R116); one that is not the parser's is refused
(`Obligations.SecondProducerOrConsumerIsRefused`). In a state that meets the invariant the parser's counts are within the occupancy. How
the model tells which counts are the parser's is log entry 9. -/
def Obligations.ReportedCountIsConsumed : Prop :=
  ∀ (s : State) (n : Nat) (q : List Command) (rest : List Event),
    s.events = consumerTurn :: rest → s.consumerQueue = encode (.consume n) :: q → s.inFlight = .idle →
    (¬ HasParsed s.report ∧ n ≤ s.size ∨ Reported s n ∧ BlockInv s) →
    step s = .next { s with
      events := rest
      active := .consumer
      consumerQueue := q
      acc := s.acc.drop n
      report := { s.report with snapshots := [], past := s.report.snapshots ++ s.report.past }
      delivered := s.delivered ++ [{ agent := .consumer, result := .ok }] }

/-- What the consumer has seen and parsed, step by step. A `PEEK` or T1 adds a snapshot of the bytes at the front; a parse, by hand or as T2,
adds its view to those parsed, whatever the accumulator holds (20_memory.md R57); a `CONSUME` or `RESET`, by hand or as T3, makes the
snapshots past ones (70_reset_and_hazards.md R174). No step of the producer, no cancellation, and nothing else the consumer does touches
the report. The form is the model's, and so is that after a removal a parse of a past snapshot still bars a `CONSUME` that follows no new
parse (log entry 9). -/
def Obligations.ReportFollowsParser : Prop :=
  ∀ (s t : State) (rest : List Event), step s = .next t →
    (s.events = producerTurn :: rest ∨ s.events = .cancel :: rest → t.report = s.report) ∧
    (∀ copy, s.events = consumerTurn :: rest → Copies s copy →
      t.report = { s.report with snapshots := s.report.snapshots ++ [copy] }) ∧
    (∀ view, s.events = consumerTurn :: rest → Parses s view →
      ∃ views, t.report = { s.report with parsed := views } ∧ ∀ v, v ∈ views ↔ v = view ∨ v ∈ s.report.parsed) ∧
    (s.events = consumerTurn :: rest → Removes s →
      t.report = { s.report with snapshots := [], past := s.report.snapshots ++ s.report.past }) ∧
    (s.events = consumerTurn :: rest → (∀ v, ¬ Copies s v) → (∀ view, ¬ Parses s view) → ¬ Removes s → t.report = s.report)

/-- A parse by the consumer has no order with another parse, a `PEEK` or a `RESET` of its own (20_memory.md R57): both complete in either, the
parse with the same answer, and they leave the same machine but for the order of the two results. (Before the consumer's own `CONSUME` a
parse has its place: 42_accumulator.md R116.) -/
def Obligations.ParsesHaveNoOrder : Prop :=
  ∀ (s : State) (v : Bytes) (i : Instr) (q : List Command) (rest : List Event), BlockInv s →
    s.events = consumerTurn :: consumerTurn :: rest → s.inFlight = .idle →
    ((∃ w, i = .parse w) ∨ (∃ n, i = .peek n ∧ n ≤ s.size) ∨ i = .reset) →
    ∃ (t : State) (dv di : Delivery),
      run 2 { s with consumerQueue := encode (.parse v) :: encode i :: q } =
        .next { t with delivered := s.delivered ++ [dv, di] } ∧
      run 2 { s with consumerQueue := encode i :: encode (.parse v) :: q } =
        .next { t with delivered := s.delivered ++ [di, dv] } ∧
      Answers (.parse v) { s with active := .consumer } dv.result ∧
      t.acc = (if i = .reset then [] else s.acc) ∧ t.inFlight = .idle ∧ t.config = s.config ∧ t.consumerQueue = q ∧ t.events = rest

/-- A parse by the consumer has no order with the producer's feed (20_memory.md R57, R50): whichever comes first, both complete with the same
results, the chunk appended or rejected alike, and they leave the same machine, what the consumer has seen and parsed included, but for
the order of the two results and the agent that acted last. The event form is the model's (log entry 5). -/
def Obligations.ParseAndFeedHaveNoOrder : Prop :=
  ∀ (s : State) (v b : Bytes) (pq cq : List Command) (rest : List Event),
    s.inFlight = .idle → s.producerOn = true →
    s.producerQueue = encode (.put b) :: pq → s.consumerQueue = encode (.parse v) :: cq →
    ∃ (t : State) (dv db : Delivery),
      run 2 { s with events := consumerTurn :: producerTurn :: rest } =
        .next { t with active := .producer, delivered := s.delivered ++ [dv, db] } ∧
      run 2 { s with events := producerTurn :: consumerTurn :: rest } =
        .next { t with active := .consumer, delivered := s.delivered ++ [db, dv] } ∧
      Answers (.parse v) { s with active := .consumer } dv.result ∧ t.report.snapshots = s.report.snapshots ∧
      (s.size + b.length ≤ s.config.capacity → t.acc = s.acc ++ b ∧ db.result = .ok) ∧
      (s.config.capacity < s.size + b.length → t.acc = s.acc ∧ db.result = .err .capacity)

/-- A consumer that has been told the count `n` of what is at the front, then begins a `TRY_EXTRACT` and stops after T1 or T2, has applied no
decision (70_reset_and_hazards.md R173): no `CONSUME` has come between, and its `CONSUME n` is done (R174, 42_accumulator.md R116). The event
form is the model's (log entry 5), and so is the report (log entry 9). -/
def Obligations.CancelledTryExtractLeavesReport : Prop :=
  ∀ (s : State) (phases n : Nat) (q : List Command) (rest : List Event), BlockInv s →
    Reported s n → s.inFlight = .idle → phases = 1 ∨ phases = 2 →
    s.consumerQueue = tryExtractCommand :: encode (.consume n) :: q →
    s.events = List.replicate phases consumerTurn ++ .cancel :: consumerTurn :: rest →
    ∃ r, run (phases + 2) s = .next { s with
      events := rest
      active := .consumer
      consumerQueue := q
      acc := s.acc.drop n
      report := r
      delivered := s.delivered ++ [{ agent := .consumer, result := .ok }] } ∧ r.snapshots = []
end

