-- ==== Sys2Proof/Laws/Bytes.lean ====
section
/-! SUPPORT. Lemmas of the operand notation (Machine/Operands.lean): slices, little-endian fields, `cstr`, `find`. -/

namespace Sys2Proof.Machine

@[simp] theorem slice_length (b : Bytes) (i j : Nat) : (slice b i j).length = min (j - i) (b.length - i) := by
  simp [slice]

@[simp] theorem slice_zero (b : Bytes) (j : Nat) : slice b 0 j = b.take j := by simp [slice]

/-- A slice within a part of a sequence does not see what follows that part. -/
theorem slice_append_left {a : Bytes} (b : Bytes) {i j : Nat} (h : j ≤ a.length) :
    slice (a ++ b) i j = slice a i j := by
  unfold slice
  rcases Nat.le_total i a.length with hi | hi
  · rw [List.drop_append_of_le_length hi, List.take_append_of_le_length (by simp; omega)]
  · simp [show j - i = 0 by omega]

/-- A slice beyond the first part is a slice of the rest. -/
theorem slice_append_right {a : Bytes} (b : Bytes) {i j : Nat} (h : a.length ≤ i) :
    slice (a ++ b) i j = slice b (i - a.length) (j - a.length) := by
  unfold slice
  rw [List.drop_append, List.drop_eq_nil_of_le h]
  simp only [List.nil_append]
  congr 1; omega

theorem slice_drop (b : Bytes) (k i j : Nat) : slice (b.drop k) i j = slice b (k + i) (k + j) := by
  unfold slice
  rw [List.drop_drop]; congr 1; omega

theorem byteAt_append_left {a : Bytes} (b : Bytes) {o : Nat} (h : o < a.length) : byteAt (a ++ b) o = byteAt a o := by
  simp [byteAt, List.getElem?_append_left h]

theorem byteAt_append_right {a : Bytes} (b : Bytes) {o : Nat} (h : a.length ≤ o) :
    byteAt (a ++ b) o = byteAt b (o - a.length) := by
  simp [byteAt, List.getElem?_append_right h]

@[simp] theorem byteAt_cons_zero (x : Byte) (b : Bytes) : byteAt (x :: b) 0 = x := rfl

@[simp] theorem byteAt_cons_succ (x : Byte) (b : Bytes) (o : Nat) : byteAt (x :: b) (o + 1) = byteAt b o := rfl

theorem byteAt_of_prefix {a b : Bytes} (h : a <+: b) {o : Nat} (ho : o < a.length) : byteAt a o = byteAt b o := by
  obtain ⟨c, rfl⟩ := h
  exact (byteAt_append_left c ho).symm

theorem byteAt_take {b : Bytes} {o n : Nat} (h : o < n) : byteAt (b.take n) o = byteAt b o := by
  simp [byteAt, h]

theorem byteAt_drop (b : Bytes) (k o : Nat) : byteAt (b.drop k) o = byteAt b (k + o) := by
  simp [byteAt]

theorem le16_congr {a b : Bytes} {o p : Nat} (h0 : byteAt a o = byteAt b p) (h1 : byteAt a (o + 1) = byteAt b (p + 1)) :
    le16 a o = le16 b p := by
  simp [le16, h0, h1]

theorem le32_congr {a b : Bytes} {o p : Nat} (h0 : byteAt a o = byteAt b p) (h1 : byteAt a (o + 1) = byteAt b (p + 1))
    (h2 : byteAt a (o + 2) = byteAt b (p + 2)) (h3 : byteAt a (o + 3) = byteAt b (p + 3)) : le32 a o = le32 b p := by
  simp [le32, h0, h1, h2, h3]

theorem le16_append_left {a : Bytes} (b : Bytes) {o : Nat} (h : o + 1 < a.length) : le16 (a ++ b) o = le16 a o :=
  le16_congr (byteAt_append_left b (by omega)) (byteAt_append_left b h)

theorem le32_append_left {a : Bytes} (b : Bytes) {o : Nat} (h : o + 3 < a.length) : le32 (a ++ b) o = le32 a o :=
  le32_congr (byteAt_append_left b (by omega)) (byteAt_append_left b (by omega)) (byteAt_append_left b (by omega))
    (byteAt_append_left b h)

theorem le32_take {b : Bytes} {o n : Nat} (h : o + 3 < n) : le32 (b.take n) o = le32 b o :=
  le32_congr (byteAt_take (by omega)) (byteAt_take (by omega)) (byteAt_take (by omega)) (byteAt_take h)

@[simp] theorem putLe16_length (v : U16) : (putLe16 v).length = 2 := rfl

@[simp] theorem putLe32_length (v : U32) : (putLe32 v).length = 4 := rfl

/-- A 16-bit field reads back as written. -/
theorem le16_putLe16 (v : U16) (rest : Bytes) : le16 (putLe16 v ++ rest) 0 = v := by
  have h : (v.extractLsb' 0 8).setWidth 16 ||| ((v.extractLsb' 8 8).setWidth 16 <<< 8) = v := by
    apply BitVec.eq_of_getLsbD_eq
    intro i hi
    simp only [BitVec.getLsbD_or, BitVec.getLsbD_setWidth, BitVec.getLsbD_shiftLeft, BitVec.getLsbD_extractLsb']
    interval_cases i <;> simp
  exact h

/-- A 32-bit field reads back as written. -/
theorem le32_putLe32 (v : U32) (rest : Bytes) : le32 (putLe32 v ++ rest) 0 = v := by
  have h : (v.extractLsb' 0 8).setWidth 32 ||| ((v.extractLsb' 8 8).setWidth 32 <<< 8)
      ||| ((v.extractLsb' 16 8).setWidth 32 <<< 16) ||| ((v.extractLsb' 24 8).setWidth 32 <<< 24) = v := by
    apply BitVec.eq_of_getLsbD_eq
    intro i hi
    simp only [BitVec.getLsbD_or, BitVec.getLsbD_setWidth, BitVec.getLsbD_shiftLeft, BitVec.getLsbD_extractLsb']
    interval_cases i <;> simp
  exact h

/-- `cstr` of a null-free string followed by its terminator is the string. -/
theorem cstr_append_zero {b : Bytes} (h : 0 ∉ b) (rest : Bytes) : cstr (b ++ 0 :: rest) = b := by
  unfold cstr
  rw [List.takeWhile_append_of_pos (by intro x hx; simpa using ne_of_mem_of_not_mem hx h)]
  simp

/-- `cstr` of a null-free string is the string. -/
theorem cstr_eq_self {b : Bytes} (h : 0 ∉ b) : cstr b = b := by
  unfold cstr
  rw [List.takeWhile_eq_self_iff]
  intro x hx; simpa using ne_of_mem_of_not_mem hx h

/-- `cstr b` holds no `0x00`. -/
theorem zero_notMem_cstr (b : Bytes) : (0 : Byte) ∉ cstr b := by
  intro h
  simpa using List.mem_takeWhile_imp h

/-- `find` answers the least offset at which the pattern stands (spec/00_scope.md R11). -/
theorem find_eq_some_iff {p b : Bytes} (hp : p ≠ []) {k : Nat} :
    find p b = some k ↔ slice b k (k + p.length) = p ∧ ∀ j < k, slice b j (j + p.length) ≠ p := by
  induction b generalizing k with
  | nil =>
    have : slice ([] : Bytes) k (k + p.length) ≠ p := by simpa [slice] using hp.symm
    simp [find, hp, this]
  | cons x b ih =>
    unfold find
    split
    · next h =>
      have h0 : slice (x :: b) 0 (0 + p.length) = p := by simpa using h
      constructor
      · rintro ⟨⟩; exact ⟨h0, fun j hj => absurd hj (Nat.not_lt_zero j)⟩
      · rintro ⟨-, hk⟩
        cases k with
        | zero => rfl
        | succ k => exact absurd h0 (hk 0 (Nat.succ_pos k))
    · next h =>
      have h0 : slice (x :: b) 0 (0 + p.length) ≠ p := by simpa using h
      have hs : ∀ j, slice (x :: b) (j + 1) (j + 1 + p.length) = slice b j (j + p.length) := by
        intro j; simp [slice]
      cases k with
      | zero => simp [h]
      | succ k =>
        simp only [Option.map_eq_some_iff, Nat.add_right_cancel_iff, exists_eq_right, ih, hs]
        refine and_congr_right fun _ => ⟨fun hj j hjk => ?_, fun hj j hjk => ?_⟩
        · cases j with
          | zero => exact h0
          | succ j => rw [hs]; exact hj j (by omega)
        · rw [← hs]; exact hj (j + 1) (by omega)

/-- `find` answers none exactly when the pattern stands at no offset. -/
theorem find_eq_none_iff {p b : Bytes} (hp : p ≠ []) :
    find p b = none ↔ ∀ j, slice b j (j + p.length) ≠ p := by
  constructor
  · intro h j hj
    have hex : ∃ j, slice b j (j + p.length) = p := ⟨j, hj⟩
    classical
    have := (find_eq_some_iff hp).2 ⟨Nat.find_spec hex, fun i hi => Nat.find_min hex hi⟩
    simp [h] at this
  · intro h
    cases hf : find p b with
    | none => rfl
    | some k => exact absurd ((find_eq_some_iff hp).1 hf).1 (h k)

theorem syncMarker_eq : syncMarker = [0xEB, 0xCF, 0x79, 0x00] := by decide

theorem syncMarker_ne_nil : syncMarker ≠ [] := by decide

@[simp] theorem syncMarker_length : syncMarker.length = 4 := rfl

end Sys2Proof.Machine
end

