-- ==== Sys2Proof/Laws/Base64.lean ====
section
/-! SUPPORT. Lemmas of the Base64 Codec (Machine/Base64.lean): the alphabet, the groups, and what the pad characters stand for. -/

namespace Sys2Proof.Machine

/-- The decode table inverts the alphabet. -/
theorem bits6_enc6 : ∀ v : BitVec 6, bits6 (enc6 v) = v := by decide

theorem enc6_ne_padChar : ∀ v : BitVec 6, enc6 v ≠ padChar := by decide

theorem bits6_padChar : bits6 padChar = 0 := by decide

theorem enc6_zero : enc6 0 = 0x41 := by decide

@[simp] theorem encGroup_length (a b c : Byte) : (encGroup a b c).length = 4 := rfl

@[simp] theorem decGroup_length (a b c d : Byte) : (decGroup a b c d).length = 3 := rfl

/-- Cutting 24 bits into sextets and joining them again changes nothing. -/
theorem join_sextets (t : U24) :
    (t.extractLsb' 18 6 ++ t.extractLsb' 12 6 ++ t.extractLsb' 6 6 ++ t.extractLsb' 0 6 : U24) = t := by
  apply BitVec.eq_of_getLsbD_eq
  intro i hi
  simp only [BitVec.getLsbD_append, BitVec.getLsbD_extractLsb']
  interval_cases i <;> simp

/-- The three bytes of the 24 bits they were joined into. -/
theorem bytes_of_join (a b c : Byte) :
    [(a ++ b ++ c : U24).extractLsb' 16 8, (a ++ b ++ c : U24).extractLsb' 8 8, (a ++ b ++ c : U24).extractLsb' 0 8]
      = [a, b, c] := by
  have h : ∀ x y : Byte, (∀ i, i < 8 → x.getLsbD i = y.getLsbD i) → x = y := fun _ _ => BitVec.eq_of_getLsbD_eq
  congr 1
  · apply h; intro i hi
    simp only [BitVec.getLsbD_append, BitVec.getLsbD_extractLsb']
    interval_cases i <;> simp
  congr 1
  · apply h; intro i hi
    simp only [BitVec.getLsbD_append, BitVec.getLsbD_extractLsb']
    interval_cases i <;> simp
  congr 1
  · apply h; intro i hi
    simp only [BitVec.getLsbD_append, BitVec.getLsbD_extractLsb']
    interval_cases i <;> simp

/-- The sextets of a group, as 24 bits. -/
def joinBits (c0 c1 c2 c3 : Byte) : U24 := bits6 c0 ++ bits6 c1 ++ bits6 c2 ++ bits6 c3

theorem joinBits_enc6 (v0 v1 v2 v3 : BitVec 6) :
    joinBits (enc6 v0) (enc6 v1) (enc6 v2) (enc6 v3) = v0 ++ v1 ++ v2 ++ v3 := by
  simp only [joinBits, bits6_enc6]

/-- A decoded group inverts an encoded one. -/
theorem decGroups_encGroup (a b c : Byte) (rest : Bytes) :
    decGroups (encGroup a b c ++ rest) = a :: b :: c :: decGroups rest := by
  have h := joinBits_enc6 ((a ++ b ++ c : U24).extractLsb' 18 6) ((a ++ b ++ c : U24).extractLsb' 12 6)
    ((a ++ b ++ c : U24).extractLsb' 6 6) ((a ++ b ++ c : U24).extractLsb' 0 6)
  rw [join_sextets] at h
  unfold joinBits at h
  have hb := bytes_of_join a b c
  simp only [encGroup, List.cons_append, List.nil_append, decGroups, decGroup]
  rw [h]
  simpa using hb

/-- Three bytes at a time: the induction that the encoder's recursion follows. -/
theorem bytes_induction {P : Bytes → Prop} (nil : P []) (one : ∀ a, P [a]) (two : ∀ a b, P [a, b])
    (more : ∀ a b c rest, P rest → P (a :: b :: c :: rest)) : ∀ d, P d
  | [] => nil
  | [a] => one a
  | [a, b] => two a b
  | a :: b :: c :: rest => more a b c rest (bytes_induction nil one two more rest)

/-- Four characters for each group of up to three bytes. -/
theorem encGroups_length (d : Bytes) : (encGroups d).length = 4 * ((d.length + 2) / 3) := by
  induction d using bytes_induction with
  | nil => rfl
  | one a => simp [encGroups]
  | two a b => simp [encGroups]
  | more a b c rest ih => simp only [encGroups, List.length_append, encGroup_length, ih, List.length_cons]; omega

/-- Three bytes for each full group of four characters. -/
theorem decGroups_length : ∀ t : Bytes, (decGroups t).length = 3 * (t.length / 4)
  | [] => rfl
  | [_] => by simp [decGroups]
  | [_, _] => by simp [decGroups]
  | [_, _, _] => by simp [decGroups]
  | c0 :: c1 :: c2 :: c3 :: rest => by
    simp only [decGroups, List.length_append, decGroup_length, decGroups_length rest, List.length_cons]; omega

theorem padCount_le (n : Nat) : padCount n ≤ 2 := by unfold padCount; split <;> omega

theorem padCount_add_three (n : Nat) : padCount (n + 3) = padCount n := by
  simp [padCount, Nat.add_mod_right]

/-- The encoder's text, group by group: all but the last group stand as they are. -/
theorem b64Encode_cons (a b c : Byte) (rest : Bytes) :
    b64Encode (a :: b :: c :: rest) = encGroup a b c ++ b64Encode rest := by
  have hl := encGroups_length rest
  have hp := padCount_le rest.length
  have h : padCount rest.length ≤ (encGroups rest).length := by
    rcases rest with _ | ⟨x, _ | ⟨y, _ | ⟨z, w⟩⟩⟩
    · simp [padCount]
    · simp [padCount, hl]
    · simp [padCount, hl]
    · rw [hl]; simp only [List.length_cons] at hp ⊢; omega
  simp only [b64Encode, encGroups, List.length_cons]
  rw [show rest.length + 1 + 1 + 1 = rest.length + 3 from rfl, padCount_add_three, List.length_append, encGroup_length,
    show 4 + (encGroups rest).length - padCount rest.length = (encGroup a b c).length + ((encGroups rest).length - padCount rest.length)
      by rw [encGroup_length]; omega, List.take_length_add_append, List.append_assoc]

end Sys2Proof.Machine
end

