-- ==== Sys2Proof/Laws/Crc.lean ====
section
/-! SUPPORT. Lemmas of the checksums (Machine/Crc.lean): a round is injective, so CRC32 tells apart two sequences that differ in one byte, and
each round in integer arithmetic. -/

namespace Sys2Proof.Machine

/-- The top bit of the reflected polynomial is set, so a round shows in its own top bit whether bit 0 was set. -/
theorem crc32Round_getLsbD_31 (c : U32) : (crc32Round c).getLsbD 31 = c.getLsbD 0 := by
  unfold crc32Round
  cases h : c.getLsbD 0
  · simp
  · have hp : Config.crc32Poly.getLsbD 31 = true := by decide
    simp [hp]

theorem crc32Round_injective : Function.Injective crc32Round := by
  intro a b h
  have h0 : a.getLsbD 0 = b.getLsbD 0 := by
    rw [← crc32Round_getLsbD_31, ← crc32Round_getLsbD_31, h]
  have hs : a >>> 1 = b >>> 1 := by
    unfold crc32Round at h
    rw [h0] at h
    split at h
    · simpa using congrArg (· ^^^ Config.crc32Poly) h
    · exact h
  apply BitVec.eq_of_getLsbD_eq
  intro i hi
  cases i with
  | zero => exact h0
  | succ i =>
    have := congrArg (fun v => v.getLsbD i) hs
    simpa [BitVec.getLsbD_ushiftRight, Nat.add_comm 1 i] using this

theorem repeat_injective {α : Type} {f : α → α} (hf : Function.Injective f) (n : Nat) :
    Function.Injective (Nat.repeat f n) := by
  induction n with
  | zero => exact fun _ _ h => h
  | succ n ih => exact fun _ _ h => ih (hf h)

/-- For each byte, the register before is told by the register after. -/
theorem crc32Byte_injective_crc (b : Byte) : Function.Injective (crc32Byte · b) := by
  intro c d h
  have := repeat_injective crc32Round_injective 8 h
  simpa using congrArg (· ^^^ b.setWidth 32) this

/-- For each register, the byte is told by the register after. -/
theorem crc32Byte_injective_byte (c : U32) : Function.Injective (crc32Byte c) := by
  intro a b h
  have := repeat_injective crc32Round_injective 8 h
  have h32 : a.setWidth 32 = b.setWidth 32 := by
    have hx := congrArg (c ^^^ ·) this
    simpa [← BitVec.xor_assoc] using hx
  have h8 := congrArg (BitVec.setWidth 8) h32
  simpa using h8

theorem foldl_crc32Byte_injective (data : Bytes) : Function.Injective (fun c => data.foldl crc32Byte c) := by
  induction data with
  | nil => exact fun _ _ h => h
  | cons b data ih => exact fun _ _ h => crc32Byte_injective_crc b (ih h)

/-- CRC32 tells apart two sequences that differ in exactly one byte. -/
theorem crc32_ne_of_one_byte (pre suf : Bytes) {x y : Byte} (h : x ≠ y) :
    crc32 (pre ++ x :: suf) ≠ crc32 (pre ++ y :: suf) := by
  intro he
  apply h
  have h1 := congrArg (· ^^^ Config.crc32XorOut) he
  simp only [crc32, BitVec.xor_assoc, BitVec.xor_self, BitVec.xor_zero, List.foldl_append, List.foldl_cons] at h1
  exact crc32Byte_injective_byte _ (foldl_crc32Byte_injective suf h1)

/-- A CRC32 round in integer arithmetic. -/
theorem crc32Round_toNat (c : U32) : (crc32Round c).toNat = crc32RoundNat c.toNat := by
  unfold crc32Round crc32RoundNat
  have h : c.getLsbD 0 = decide (c.toNat % 2 = 1) := by simp [BitVec.getLsbD, Nat.testBit_zero]
  rw [h]
  have hp : Config.crc32Poly.toNat = 0xEDB88320 := by decide
  by_cases hc : c.toNat % 2 = 1 <;> simp [hc, BitVec.toNat_xor, BitVec.toNat_ushiftRight, Nat.shiftRight_eq_div_pow, hp]

/-- A CRC16 round in integer arithmetic. -/
theorem crc16Round_toNat (dir : ElseShift) (c : U16) : (crc16Round dir c).toNat = crc16RoundNat dir c.toNat := by
  have hlt := c.isLt
  have h : c.getLsbD 15 = decide (32768 ≤ c.toNat) := by
    have := BitVec.msb_eq_decide c
    simpa [BitVec.msb, BitVec.getMsbD] using this
  have hp : Config.crc16Poly.toNat = 0x1021 := by decide
  unfold crc16Round crc16RoundNat
  rw [h]
  by_cases hc : 32768 ≤ c.toNat
  · simp [hc, BitVec.toNat_xor, BitVec.toNat_shiftLeft, Nat.shiftLeft_eq, hp, Nat.mul_comm]
  · cases dir
    · simp [hc, BitVec.toNat_ushiftRight, Nat.shiftRight_eq_div_pow]
    · simp [hc, BitVec.toNat_shiftLeft, Nat.shiftLeft_eq]; omega

end Sys2Proof.Machine
end

