-- ==== Sys2Proof/Laws/State.lean ====
section
/-! SUPPORT. The field lemmas of the state updates of Machine/Ops.lean and Machine/Issue.lean: one per field and update, true by rfl. -/

namespace Sys2Proof.Machine

variable (s : State) (r : Result) (e : ErrorCode) (hd : Handle) (f : Bytes) (a : Agent) (q : List Command) (i : Instr)

@[simp] theorem State.deliver_config : (s.deliver r).config = s.config := rfl
@[simp] theorem State.deliver_acc : (s.deliver r).acc = s.acc := rfl
@[simp] theorem State.deliver_inFlight : (s.deliver r).inFlight = s.inFlight := rfl
@[simp] theorem State.deliver_report : (s.deliver r).report = s.report := rfl
@[simp] theorem State.deliver_active : (s.deliver r).active = s.active := rfl
@[simp] theorem State.deliver_producerOn : (s.deliver r).producerOn = s.producerOn := rfl
@[simp] theorem State.deliver_producerQueue : (s.deliver r).producerQueue = s.producerQueue := rfl
@[simp] theorem State.deliver_consumerQueue : (s.deliver r).consumerQueue = s.consumerQueue := rfl
@[simp] theorem State.deliver_events : (s.deliver r).events = s.events := rfl
@[simp] theorem State.deliver_writeReplies : (s.deliver r).writeReplies = s.writeReplies := rfl
@[simp] theorem State.deliver_tx : (s.deliver r).tx = s.tx := rfl
@[simp] theorem State.deliver_delivered :
    (s.deliver r).delivered = s.delivered ++ [{ agent := s.active, result := r }] := rfl

@[simp] theorem State.raise_config : (s.raise e).config = s.config := rfl
@[simp] theorem State.raise_acc : (s.raise e).acc = s.acc := rfl
@[simp] theorem State.raise_inFlight : (s.raise e).inFlight = s.inFlight := rfl
@[simp] theorem State.raise_report : (s.raise e).report = s.report := rfl
@[simp] theorem State.raise_active : (s.raise e).active = s.active := rfl
@[simp] theorem State.raise_producerOn : (s.raise e).producerOn = s.producerOn := rfl
@[simp] theorem State.raise_producerQueue : (s.raise e).producerQueue = s.producerQueue := rfl
@[simp] theorem State.raise_consumerQueue : (s.raise e).consumerQueue = s.consumerQueue := rfl
@[simp] theorem State.raise_events : (s.raise e).events = s.events := rfl
@[simp] theorem State.raise_writeReplies : (s.raise e).writeReplies = s.writeReplies := rfl
@[simp] theorem State.raise_tx : (s.raise e).tx = s.tx := rfl
@[simp] theorem State.raise_delivered :
    (s.raise e).delivered = s.delivered ++ [{ agent := s.active, result := .err e }] := rfl

@[simp] theorem State.clearBlock_config : s.clearBlock.config = s.config := rfl
@[simp] theorem State.clearBlock_acc : s.clearBlock.acc = [] := rfl
@[simp] theorem State.clearBlock_inFlight : s.clearBlock.inFlight = .idle := rfl
@[simp] theorem State.clearBlock_report : s.clearBlock.report = s.report := rfl
@[simp] theorem State.clearBlock_active : s.clearBlock.active = s.active := rfl
@[simp] theorem State.clearBlock_producerOn : s.clearBlock.producerOn = s.producerOn := rfl
@[simp] theorem State.clearBlock_producerQueue : s.clearBlock.producerQueue = s.producerQueue := rfl
@[simp] theorem State.clearBlock_consumerQueue : s.clearBlock.consumerQueue = s.consumerQueue := rfl
@[simp] theorem State.clearBlock_events : s.clearBlock.events = s.events := rfl
@[simp] theorem State.clearBlock_writeReplies : s.clearBlock.writeReplies = s.writeReplies := rfl
@[simp] theorem State.clearBlock_tx : s.clearBlock.tx = s.tx := rfl
@[simp] theorem State.clearBlock_delivered : s.clearBlock.delivered = s.delivered := rfl

@[simp] theorem State.transportWrite_config : (s.transportWrite hd f).config = s.config := rfl
@[simp] theorem State.transportWrite_acc : (s.transportWrite hd f).acc = s.acc := rfl
@[simp] theorem State.transportWrite_inFlight : (s.transportWrite hd f).inFlight = s.inFlight := rfl
@[simp] theorem State.transportWrite_report : (s.transportWrite hd f).report = s.report := rfl
@[simp] theorem State.transportWrite_active : (s.transportWrite hd f).active = s.active := rfl
@[simp] theorem State.transportWrite_producerOn : (s.transportWrite hd f).producerOn = s.producerOn := rfl
@[simp] theorem State.transportWrite_producerQueue : (s.transportWrite hd f).producerQueue = s.producerQueue := rfl
@[simp] theorem State.transportWrite_consumerQueue : (s.transportWrite hd f).consumerQueue = s.consumerQueue := rfl
@[simp] theorem State.transportWrite_events : (s.transportWrite hd f).events = s.events := rfl
@[simp] theorem State.transportWrite_writeReplies : (s.transportWrite hd f).writeReplies = s.writeReplies.tail := rfl
@[simp] theorem State.transportWrite_tx :
    (s.transportWrite hd f).tx = s.tx ++ [{ handle := hd, frame := f, reply := s.nextReply }] := rfl
@[simp] theorem State.transportWrite_delivered :
    (s.transportWrite hd f).delivered = s.delivered ++ [{ agent := s.active, result := replyResult s.nextReply }] := rfl

@[simp] theorem State.queue_producer : s.queue .producer = s.producerQueue := rfl
@[simp] theorem State.queue_consumer : s.queue .consumer = s.consumerQueue := rfl
@[simp] theorem State.setQueue_producer : s.setQueue .producer q = { s with producerQueue := q } := rfl
@[simp] theorem State.setQueue_consumer : s.setQueue .consumer q = { s with consumerQueue := q } := rfl
@[simp] theorem State.setQueue_config : (s.setQueue a q).config = s.config := by cases a <;> rfl
@[simp] theorem State.setQueue_acc : (s.setQueue a q).acc = s.acc := by cases a <;> rfl
@[simp] theorem State.setQueue_inFlight : (s.setQueue a q).inFlight = s.inFlight := by cases a <;> rfl
@[simp] theorem State.setQueue_report : (s.setQueue a q).report = s.report := by cases a <;> rfl
@[simp] theorem State.setQueue_active : (s.setQueue a q).active = s.active := by cases a <;> rfl
@[simp] theorem State.setQueue_producerOn : (s.setQueue a q).producerOn = s.producerOn := by cases a <;> rfl
@[simp] theorem State.setQueue_events : (s.setQueue a q).events = s.events := by cases a <;> rfl
@[simp] theorem State.setQueue_writeReplies : (s.setQueue a q).writeReplies = s.writeReplies := by cases a <;> rfl
@[simp] theorem State.setQueue_tx : (s.setQueue a q).tx = s.tx := by cases a <;> rfl
@[simp] theorem State.setQueue_delivered : (s.setQueue a q).delivered = s.delivered := by cases a <;> rfl

@[simp] theorem State.note_producer : s.note .producer i = s := rfl
@[simp] theorem State.note_consumer : s.note .consumer i = { s with report := s.reportAfter i } := rfl
@[simp] theorem State.note_config : (s.note a i).config = s.config := by cases a <;> rfl
@[simp] theorem State.note_acc : (s.note a i).acc = s.acc := by cases a <;> rfl
@[simp] theorem State.note_inFlight : (s.note a i).inFlight = s.inFlight := by cases a <;> rfl
@[simp] theorem State.note_active : (s.note a i).active = s.active := by cases a <;> rfl
@[simp] theorem State.note_producerOn : (s.note a i).producerOn = s.producerOn := by cases a <;> rfl
@[simp] theorem State.note_producerQueue : (s.note a i).producerQueue = s.producerQueue := by cases a <;> rfl
@[simp] theorem State.note_consumerQueue : (s.note a i).consumerQueue = s.consumerQueue := by cases a <;> rfl
@[simp] theorem State.note_events : (s.note a i).events = s.events := by cases a <;> rfl
@[simp] theorem State.note_writeReplies : (s.note a i).writeReplies = s.writeReplies := by cases a <;> rfl
@[simp] theorem State.note_tx : (s.note a i).tx = s.tx := by cases a <;> rfl
@[simp] theorem State.note_delivered : (s.note a i).delivered = s.delivered := by cases a <;> rfl

variable (rp : Report) (v : Bytes)

@[simp] theorem Report.noteCopy_snapshots : (rp.noteCopy v).snapshots = rp.snapshots ++ [v] := rfl
@[simp] theorem Report.noteCopy_past : (rp.noteCopy v).past = rp.past := rfl
@[simp] theorem Report.noteCopy_parsed : (rp.noteCopy v).parsed = rp.parsed := rfl
@[simp] theorem Report.noteParse_snapshots : (rp.noteParse v).snapshots = rp.snapshots := rfl
@[simp] theorem Report.noteParse_past : (rp.noteParse v).past = rp.past := rfl
@[simp] theorem Report.noteParse_parsed : (rp.noteParse v).parsed = insertView v rp.parsed := rfl
@[simp] theorem Report.noteRemoval_snapshots : (rp.noteRemoval).snapshots = [] := rfl
@[simp] theorem Report.noteRemoval_past : (rp.noteRemoval).past = rp.snapshots ++ rp.past := rfl
@[simp] theorem Report.noteRemoval_parsed : (rp.noteRemoval).parsed = rp.parsed := rfl

end Sys2Proof.Machine
end

