-- ==== Sys2Proof/Laws/Ops.lean ====
section
/-! SUPPORT. One spec lemma per shared operation of Machine/Ops.lean and Machine/Issue.lean: everything it can answer. Callers cite these instead of unfolding. -/

namespace Sys2Proof.Machine

theorem State.memRead_eq_some {s : State} {a n : Nat} {v : Bytes} :
    s.memRead a n = some v ↔ a + n ≤ s.size ∧ v = slice s.acc a (a + n) := by
  unfold State.memRead; split <;> simp_all [eq_comm]

theorem State.memRead_eq_none {s : State} {a n : Nat} : s.memRead a n = none ↔ s.size < a + n := by
  unfold State.memRead; split <;> simp_all

theorem State.memWrite_eq_some {s t : State} {a : Nat} {v : Bytes} :
    s.memWrite a v = some t ↔
      (a = s.size ∧ a + v.length ≤ s.config.capacity) ∧ t = { s with acc := s.acc ++ v } := by
  unfold State.memWrite
  split
  · next h => simp only [Option.some.injEq, h.1, true_and]; exact ⟨fun e => ⟨h.1 ▸ h.2, e.symm⟩, fun e => e.2.symm⟩
  · next h => simp only [reduceCtorEq, false_iff]; exact fun e => h e.1

theorem State.memWrite_eq_none {s : State} {v : Bytes} :
    s.memWrite s.size v = none ↔ s.config.capacity < s.size + v.length := by
  unfold State.memWrite; split <;> simp_all

theorem State.dropFront_eq_some {s t : State} {n : Nat} :
    s.dropFront n = some t ↔ n ≤ s.size ∧ t = { s with acc := s.acc.drop n } := by
  unfold State.dropFront; split <;> simp_all [eq_comm]

theorem State.dropFront_eq_none {s : State} {n : Nat} : s.dropFront n = none ↔ s.size < n := by
  unfold State.dropFront; split <;> simp_all

/-- `MemWrite` keeps the memory well formed. -/
theorem State.memWrite_wf {s t : State} {a : Nat} {v : Bytes} (h : s.memWrite a v = some t) :
    Memory.wf t.config.capacity t.acc := by
  obtain ⟨⟨rfl, hv⟩, rfl⟩ := State.memWrite_eq_some.1 h
  simpa [Memory.wf] using hv

/-- Removal from the front keeps the memory well formed. -/
theorem State.dropFront_wf {s t : State} {n : Nat} (h : s.dropFront n = some t)
    (hs : Memory.wf s.config.capacity s.acc) : Memory.wf t.config.capacity t.acc := by
  obtain ⟨-, rfl⟩ := State.dropFront_eq_some.1 h
  simp only [Memory.wf, List.length_drop] at *; omega

/-- Emptying the buffer keeps the memory well formed. -/
theorem State.clearBlock_wf (s : State) : Memory.wf s.clearBlock.config.capacity s.clearBlock.acc :=
  Nat.zero_le _

theorem reset_wf : Memory.wf State.reset.config.capacity State.reset.acc := Nat.zero_le _

/-- A byte at or beyond the occupancy does not exist. -/
theorem State.readByte_eq_none {s : State} {a : Nat} : s.readByte a = none ↔ s.size ≤ a := by
  simp [State.readByte]

/-- After an append, every byte there was reads as before. -/
theorem State.memWrite_readByte {s t : State} {a k : Nat} {v : Bytes} (h : s.memWrite a v = some t)
    (hk : k < s.size) : t.readByte k = s.readByte k := by
  obtain ⟨-, rfl⟩ := State.memWrite_eq_some.1 h
  simpa [State.readByte] using List.getElem?_append_left hk

/-- After a removal of `n` bytes, the byte at `k` is the one that was at `n + k`. -/
theorem State.dropFront_readByte {s t : State} {n : Nat} (h : s.dropFront n = some t) (k : Nat) :
    t.readByte k = s.readByte (n + k) := by
  obtain ⟨-, rfl⟩ := State.dropFront_eq_some.1 h
  simp [State.readByte]

theorem State.nextReply_cons {s : State} {r : WriteReply} {rs : List WriteReply} (h : s.writeReplies = r :: rs) :
    s.nextReply = r := by
  simp [State.nextReply, h]

@[simp] theorem mem_insertView {u v : Bytes} {vs : List Bytes} : u ∈ insertView v vs ↔ u = v ∨ u ∈ vs := by
  have : u < v ∨ u = v ∨ v < u := by
    by_cases h : u < v
    · exact .inl h
    · by_cases h' : v < u
      · exact .inr (.inr h')
      · exact .inr (.inl (List.le_antisymm h' h))
  simp only [insertView, List.mem_append, List.mem_cons, List.mem_filter, decide_eq_true_eq]
  grind

/-- The list of views stays rising. -/
theorem insertView_pairwise {v : Bytes} {vs : List Bytes} (h : vs.Pairwise (· < ·)) : (insertView v vs).Pairwise (· < ·) := by
  simp only [insertView, List.pairwise_append, List.pairwise_cons, List.mem_cons, List.mem_filter, decide_eq_true_eq]
  refine ⟨h.filter _, ⟨fun _ hb => hb.2, h.filter _⟩, ?_⟩
  rintro a ⟨-, ha⟩ b (rfl | ⟨-, hb⟩)
  · exact ha
  · exact List.lt_trans ha hb

/-- A rising list is told by its members: the order of two parses does not matter. -/
theorem insertView_comm {u v : Bytes} {vs : List Bytes} (h : vs.Pairwise (· < ·)) :
    insertView u (insertView v vs) = insertView v (insertView u vs) :=
  (insertView_pairwise (insertView_pairwise h)).eq_of_mem_iff (insertView_pairwise (insertView_pairwise h))
    fun m => by simp [or_left_comm]

@[simp] theorem isOf_eq_true {copies : List Bytes} {v : Bytes} : isOf copies v = true ↔ ∃ u ∈ copies, v <+: u := by
  simp [isOf]

/-- When the consumer's `CONSUME` is off the reported counts. -/
theorem Report.allows_eq_false {cfg : Config} {r : Report} {n : Nat} :
    r.allows cfg n = false ↔ (∃ v ∈ r.parsed, ∃ u ∈ r.snapshots ++ r.past, v <+: u) ∧
      ¬ ∃ v ∈ r.parsed, (∃ u ∈ r.snapshots, v <+: u) ∧ (parse cfg v).count = n := by
  simp only [Report.allows, Bool.or_eq_false_iff, List.all_eq_false, List.any_eq_false]
  simp

/-- When the consumer's `CONSUME` is refused. -/
theorem State.offCount_eq_some {s : State} {i : Instr} {n : Nat} :
    s.offCount i = some n ↔ i = .consume n ∧ n ≤ s.size ∧
      (∃ v ∈ s.report.parsed, ∃ u ∈ s.report.snapshots ++ s.report.past, v <+: u) ∧
      ¬ ∃ v ∈ s.report.parsed, (∃ u ∈ s.report.snapshots, v <+: u) ∧ (parse s.config v).count = n := by
  rw [← Report.allows_eq_false]
  cases i with
  | consume m => simp only [State.offCount]; split <;> simp <;> grind
  | _ => simp [State.offCount]

/-- Everything that can be objected to a request. -/
theorem State.objection_cases (s : State) (a : Agent) (i : Instr) :
    (openTo a i = false ∧ s.objection a i = some (.notOpenToAgent a i)) ∨
    (openTo a i = true ∧ ∃ n, s.offCount i = some n ∧ s.objection a i = some (.consumeNotReported n)) ∨
    (openTo a i = true ∧ s.offCount i = none ∧ s.objection a i = none) := by
  unfold State.objection
  cases openTo a i <;> cases s.offCount i <;> simp

/-- Everything fetching can come to. -/
theorem State.fetch_cases (s : State) (a : Agent) :
    (s.queue a = [] ∧ s.fetch a = .done s) ∨
    (∃ c q, s.queue a = c :: q ∧ (∃ e, decode c = .error e) ∧ s.fetch a = .done ((s.setQueue a q).raise .badOp)) ∨
    (∃ c q i, s.queue a = c :: q ∧ decode c = .ok i ∧ openTo a i = true ∧ s.offCount i = none ∧
      s.fetch a = .run i ((s.setQueue a q).note a i)) ∨
    (∃ c q i r, s.queue a = c :: q ∧ decode c = .ok i ∧ s.objection a i = some r ∧ s.fetch a = .refuse r) := by
  unfold State.fetch
  split
  · exact .inl ⟨‹_›, rfl⟩
  · next c q hq =>
    split
    · next e he => exact .inr (.inl ⟨c, q, hq, ⟨e, he⟩, rfl⟩)
    · next i hi =>
      obtain ⟨-, ho⟩ | ⟨-, n, -, ho⟩ | ⟨h1, h2, ho⟩ := s.objection_cases a i
      · exact .inr (.inr (.inr ⟨c, q, i, _, hq, hi, ho, by rw [ho]⟩))
      · exact .inr (.inr (.inr ⟨c, q, i, _, hq, hi, ho, by rw [ho]⟩))
      · exact .inr (.inr (.inl ⟨c, q, i, hq, hi, h1, h2, by rw [ho]⟩))

theorem State.takeTurn_producer (s : State) :
    s.takeTurn .producer =
      if s.producerOn then State.fetch { s with active := .producer } .producer
      else .done { s with active := .producer } := rfl

theorem State.takeTurn_consumer (s : State) :
    s.takeTurn .consumer =
      if s.inFlight = .idle then State.fetch { s with active := .consumer } .consumer
      else .run .tryExtract (State.note { s with active := .consumer } .consumer .tryExtract) := rfl

theorem State.issue_nil {s : State} (h : s.events = []) : s.issue = .done s := by
  simp [State.issue, h]

theorem State.issue_turn {s : State} {a : Agent} {es : List Event} (h : s.events = .turn a :: es) :
    s.issue = State.takeTurn { s with events := es } a := by
  simp [State.issue, h]

theorem State.issue_cancel {s : State} {es : List Event} (h : s.events = .cancel :: es) :
    s.issue = .done { s with events := es, inFlight := .idle } := by
  simp [State.issue, h]

theorem State.issue_stopProducer {s : State} {es : List Event} (h : s.events = .stopProducer :: es) :
    s.issue = .done { s with events := es, producerOn := false } := by
  simp [State.issue, h]

theorem State.issue_hardwareReset {s : State} {es : List Event} (h : s.events = .hardwareReset :: es) :
    s.issue = .done { s with events := es, acc := [], inFlight := .idle, report := s.report.noteRemoval } := by
  simp [State.issue, h, State.clearBlock]

end Sys2Proof.Machine
end

