-- ==== Sys2Proof/Laws/Exec.lean ====
section
/-! SUPPORT. What each meaning can do, once per meaning, and the frame every meaning keeps. -/

namespace Sys2Proof.Machine

/-- The model's table of agents, as the six pairs it leaves out. -/
theorem openTo_eq_false_iff {a : Agent} {i : Instr} : openTo a i = false ↔ OutsideTable a i := by
  cases a <;> cases i <;> simp [openTo, OutsideTable]

/-- Nothing stands against a request that the table holds and that is no `CONSUME` off the parser's count. -/
theorem State.objection_eq_none {s : State} {a : Agent} {i : Instr} (ho : ¬ OutsideTable a i)
    (hn : ∀ n, ¬ NotReported s n i) : s.objection a i = none := by
  obtain ⟨h, -⟩ | ⟨-, n, h, -⟩ | ⟨-, -, h⟩ := s.objection_cases a i
  · exact absurd (openTo_eq_false_iff.1 h) ho
  · exact absurd (State.offCount_eq_some.1 h) (hn n)
  · exact h

/-- A copy of the first bytes fits the content. -/
theorem Report.noteCopy_fits {r : Report} {acc copy : Bytes} (h : r.fits acc) (hc : copy <+: acc) : (r.noteCopy copy).fits acc :=
  ⟨fun v hv => (List.mem_append.1 hv).elim (h.1 v) fun hv => by rw [List.mem_singleton.1 hv]; exact hc, h.2⟩

/-- A parse leaves what has been seen. -/
theorem Report.noteParse_fits {r : Report} {acc : Bytes} (h : r.fits acc) (view : Bytes) : (r.noteParse view).fits acc :=
  ⟨h.1, insertView_pairwise h.2⟩

/-- After a removal nothing has been seen of the bytes that are there. -/
theorem Report.noteRemoval_fits {r : Report} {old : Bytes} (h : r.fits old) (acc : Bytes) : r.noteRemoval.fits acc :=
  ⟨fun _ hv => absurd hv List.not_mem_nil, h.2⟩

/-- What was seen of a content is of the front of a longer one. -/
theorem Report.fits_append {r : Report} {acc : Bytes} (h : r.fits acc) (b : Bytes) : r.fits (acc ++ b) :=
  ⟨fun v hv => (h.1 v hv).trans (List.prefix_append _ _), h.2⟩

/-- Two parses leave the same in either order (20_memory.md R57). -/
theorem Report.noteParse_comm {r : Report} {acc : Bytes} (h : r.fits acc) (v w : Bytes) :
    (r.noteParse v).noteParse w = (r.noteParse w).noteParse v :=
  congrArg _ (insertView_comm h.2)

/-- A parse and a copy, or a removal, leave the same in either order. -/
theorem Report.noteParse_noteCopy (r : Report) (v copy : Bytes) : (r.noteParse v).noteCopy copy = (r.noteCopy copy).noteParse v := rfl

theorem Report.noteParse_noteRemoval (r : Report) (v : Bytes) : (r.noteParse v).noteRemoval = r.noteRemoval.noteParse v := rfl

@[simp] theorem encodeFrame_error_iff {cfg : Config} {uri body : Bytes} {k : Nat} {e : ErrorCode} :
    encodeFrame cfg uri body k = .error e ↔
      e = .fieldRange ∧ (Config.uriMax < uri.length ∨ cfg.msgLenMax < msgLenOf uri body) := by
  unfold encodeFrame
  split
  · next h => simp [h, eq_comm]
  · next h => simp [h]

theorem encodeFrame_ok {cfg : Config} {uri body : Bytes} {k : Nat}
    (h : ¬ (Config.uriMax < uri.length ∨ cfg.msgLenMax < msgLenOf uri body)) :
    encodeFrame cfg uri body k = .ok (putLe32 Config.syncFlag
      ++ putLe32 (crc32 (msgWindow cfg.crc16ElseShift uri body k)) ++ msgWindow cfg.crc16ElseShift uri body k) := by
  simp [encodeFrame, h]

theorem execPut_cases (bytes : Bytes) (s : State) :
    (s.size + bytes.length ≤ s.config.capacity ∧
      execPut bytes s = .next (State.deliver { s with acc := s.acc ++ bytes } .ok)) ∨
    (s.config.capacity < s.size + bytes.length ∧ execPut bytes s = .next (s.raise .capacity)) := by
  unfold execPut
  split
  · next h => exact .inr ⟨State.memWrite_eq_none.1 h, rfl⟩
  · next t h =>
    obtain ⟨⟨-, hl⟩, rfl⟩ := State.memWrite_eq_some.1 h
    exact .inl ⟨hl, rfl⟩

theorem execPeek_cases (n : Nat) (s : State) :
    (n ≤ s.size ∧ execPeek n s = .next (s.deliver (.bytes (s.acc.take n)))) ∨
    (s.size < n ∧ execPeek n s = .fault .peekBeyondSize) := by
  unfold execPeek
  split
  · next h => exact .inr ⟨by simpa using State.memRead_eq_none.1 h, rfl⟩
  · next v h =>
    obtain ⟨hn, rfl⟩ := State.memRead_eq_some.1 h
    exact .inl ⟨by omega, by simp [slice]⟩

theorem execConsume_cases (n : Nat) (s : State) :
    (n ≤ s.size ∧ execConsume n s = .next (State.deliver { s with acc := s.acc.drop n } .ok)) ∨
    (s.size < n ∧ execConsume n s = .fault .consumeBeyondSize) := by
  unfold execConsume
  split
  · next h => exact .inr ⟨State.dropFront_eq_none.1 h, rfl⟩
  · next t h =>
    obtain ⟨hn, rfl⟩ := State.dropFront_eq_some.1 h
    exact .inl ⟨hn, rfl⟩

theorem execTryExtract_cases (s : State) :
    (s.inFlight = .idle ∧ execTryExtract s = .next { s with inFlight := .viewed s.acc }) ∨
    (∃ v, s.inFlight = .viewed v ∧ execTryExtract s = .next { s with inFlight := .decided v (parse s.config v) }) ∨
    (∃ v d, s.inFlight = .decided v d ∧ d.count ≤ s.size ∧
      execTryExtract s = .next (State.deliver { s with acc := s.acc.drop d.count, inFlight := .idle } (.decision d))) ∨
    (∃ v d, s.inFlight = .decided v d ∧ s.size < d.count ∧ execTryExtract s = .fault .consumeBeyondSize) := by
  unfold execTryExtract
  split
  · next h => exact .inl ⟨h, rfl⟩
  · next v h => exact .inr (.inl ⟨v, h, rfl⟩)
  · next v d h =>
    split
    · next hd => exact .inr (.inr (.inr ⟨v, d, h, State.dropFront_eq_none.1 hd, rfl⟩))
    · next t hd =>
      obtain ⟨hn, rfl⟩ := State.dropFront_eq_some.1 hd
      exact .inr (.inr (.inl ⟨v, d, h, hn, rfl⟩))

theorem execEncode_cases (hd : Handle) (uri body : Bytes) (k : Nat) (s : State) :
    (∃ f, encodeFrame s.config uri body k = .ok f ∧ execEncode uri body k s = .next (s.deliver (.bytes f)) ∧
      execSend hd { uri := uri, body := body } k s = .next (s.transportWrite hd f)) ∨
    ((Config.uriMax < uri.length ∨ s.config.msgLenMax < msgLenOf uri body) ∧
      execEncode uri body k s = .next (s.raise .fieldRange) ∧
      execSend hd { uri := uri, body := body } k s = .next (s.raise .fieldRange)) := by
  unfold execEncode execSend
  cases h : encodeFrame s.config uri body k with
  | error e =>
    obtain ⟨rfl, hl⟩ := encodeFrame_error_iff.1 h
    exact .inr ⟨hl, rfl, rfl⟩
  | ok f => exact .inl ⟨f, rfl, rfl, rfl⟩

theorem execB64dec_cases (text : Bytes) (s : State) :
    (text.length % 4 ≠ 0 ∧ execB64dec text s = .next (s.raise .b64Length)) ∨
    (text.length % 4 = 0 ∧ execB64dec text s =
      .next (s.deliver (.bytes ((decGroups text).take (text.length / 4 * 3 - trailingPad text))))) := by
  unfold execB64dec b64Decode
  by_cases h : text.length % 4 = 0
  · exact .inr ⟨h, by simp [h]⟩
  · exact .inl ⟨h, by simp [h]⟩

/-- Everything one operation can make of the state: the fields it leaves alone, and the accumulator and what is in flight by cases. -/
theorem exec_next {i : Instr} {s t : State} (h : exec i s = .next t) :
    (t.config = s.config ∧ t.active = s.active ∧ t.producerOn = s.producerOn ∧ t.producerQueue = s.producerQueue ∧
      t.consumerQueue = s.consumerQueue ∧ t.events = s.events ∧ t.report = s.report) ∧
    (∃ l, t.delivered = s.delivered ++ l ∧ ∀ d ∈ l, d.agent = s.active) ∧
    ((t.acc = s.acc ∧ t.inFlight = s.inFlight) ∨
      (∃ b, i = .put b ∧ s.size + b.length ≤ s.config.capacity ∧ t.acc = s.acc ++ b ∧ t.inFlight = s.inFlight) ∨
      (∃ n, i = .consume n ∧ n ≤ s.size ∧ t.acc = s.acc.drop n ∧ t.inFlight = s.inFlight) ∨
      (i = .reset ∧ t.acc = [] ∧ t.inFlight = .idle) ∨
      (i = .tryExtract ∧ s.inFlight = .idle ∧ t.acc = s.acc ∧ t.inFlight = .viewed s.acc) ∨
      (∃ v, i = .tryExtract ∧ s.inFlight = .viewed v ∧ t.acc = s.acc ∧ t.inFlight = .decided v (parse s.config v)) ∨
      (∃ v d, i = .tryExtract ∧ s.inFlight = .decided v d ∧ d.count ≤ s.size ∧ t.acc = s.acc.drop d.count ∧
        t.inFlight = .idle)) := by
  cases i with
  | crc16 data => cases h; exact ⟨by simp, ⟨_, rfl, by simp⟩, by simp⟩
  | crc32 data => cases h; exact ⟨by simp, ⟨_, rfl, by simp⟩, by simp⟩
  | b64enc data => cases h; exact ⟨by simp, ⟨_, rfl, by simp⟩, by simp⟩
  | b64dec text =>
    obtain ⟨-, he⟩ | ⟨-, he⟩ := execB64dec_cases text s <;>
      (simp only [exec, he] at h; cases h; exact ⟨by simp, ⟨_, rfl, by simp⟩, by simp⟩)
  | put b =>
    obtain ⟨hl, he⟩ | ⟨-, he⟩ := execPut_cases b s <;> (simp only [exec, he] at h; cases h)
    · exact ⟨by simp, ⟨_, rfl, by simp⟩, .inr (.inl ⟨b, rfl, hl, rfl, rfl⟩)⟩
    · exact ⟨by simp, ⟨_, rfl, by simp⟩, by simp⟩
  | peek n =>
    obtain ⟨-, he⟩ | ⟨-, he⟩ := execPeek_cases n s <;> (simp only [exec, he] at h; cases h)
    exact ⟨by simp, ⟨_, rfl, by simp⟩, by simp⟩
  | consume n =>
    obtain ⟨hl, he⟩ | ⟨-, he⟩ := execConsume_cases n s <;> (simp only [exec, he] at h; cases h)
    exact ⟨by simp, ⟨_, rfl, by simp⟩, .inr (.inr (.inl ⟨n, rfl, hl, rfl, rfl⟩))⟩
  | reset => cases h; exact ⟨by simp, ⟨_, rfl, by simp⟩, by simp⟩
  | parse view => cases h; exact ⟨by simp, ⟨_, rfl, by simp⟩, by simp⟩
  | tryExtract =>
    obtain ⟨hf, he⟩ | ⟨v, hf, he⟩ | ⟨v, d, hf, hd, he⟩ | ⟨v, d, hf, hd, he⟩ := execTryExtract_cases s <;>
      (simp only [exec, he] at h; cases h)
    · exact ⟨by simp, ⟨[], by simp, by simp⟩, by simp [hf]⟩
    · exact ⟨by simp, ⟨[], by simp, by simp⟩, by simp [hf]⟩
    · exact ⟨by simp, ⟨_, rfl, by simp⟩, by simp [hf, hd]⟩
  | encode uri body k =>
    obtain ⟨f, -, he, -⟩ | ⟨-, he, -⟩ := execEncode_cases { name := 0 } uri body k s <;>
      (simp only [exec, he] at h; cases h; exact ⟨by simp, ⟨_, rfl, by simp⟩, by simp⟩)
  | send hd m k =>
    obtain ⟨f, -, -, he⟩ | ⟨-, -, he⟩ := execEncode_cases hd m.uri m.body k s <;>
      (simp only [exec, he] at h; cases h; exact ⟨by simp, ⟨_, rfl, by simp⟩, by simp⟩)

end Sys2Proof.Machine
end

