-- ==== Sys2Proof/Laws/Framer.lean ====
section
/-! SUPPORT. What the parser can answer, once (Machine/Framer.lean): the sync search in terms of where the marker stands, and the checks at a
marker at offset 0. -/

namespace Sys2Proof.Machine

theorem find_syncMarker_eq_some {b : Bytes} {k : Nat} :
    find syncMarker b = some k ↔ MarkerAt b k ∧ ∀ j < k, ¬ MarkerAt b j := by
  simpa [MarkerAt, syncMarker_eq] using find_eq_some_iff (p := syncMarker) (b := b) (k := k) syncMarker_ne_nil

theorem find_syncMarker_eq_none {b : Bytes} : find syncMarker b = none ↔ ∀ j, ¬ MarkerAt b j := by
  simpa [MarkerAt, syncMarker_eq] using find_eq_none_iff (p := syncMarker) (b := b) syncMarker_ne_nil

/-- A marker stands in full inside the sequence. -/
theorem MarkerAt.lt {b : Bytes} {k : Nat} (h : MarkerAt b k) : k + 4 ≤ b.length := by
  have := congrArg List.length h
  simp only [slice_length, List.length_cons, List.length_nil] at this
  omega

theorem markerAt_append_left {a : Bytes} (b : Bytes) {k : Nat} (h : k + 4 ≤ a.length) :
    MarkerAt (a ++ b) k ↔ MarkerAt a k := by
  simp [MarkerAt, slice_append_left b h]

theorem markerAt_append_right (a b : Bytes) : MarkerAt (a ++ b) a.length ↔ MarkerAt b 0 := by
  simp [MarkerAt, slice_append_right]

/-- The four bytes at a marker. -/
theorem markerAt_zero_iff {b : Bytes} (h : 4 ≤ b.length) :
    MarkerAt b 0 ↔ byteAt b 0 = 0xEB ∧ byteAt b 1 = 0xCF ∧ byteAt b 2 = 0x79 ∧ byteAt b 3 = 0x00 := by
  rcases b with _ | ⟨a, _ | ⟨c, _ | ⟨d, _ | ⟨e, b⟩⟩⟩⟩ <;> simp at h
  simp [MarkerAt, slice, byteAt]

/-- With the marker at offset 0, checks 3 to 6 decide. -/
theorem parse_of_markerAt_zero (cfg : Config) {view : Bytes} (h : MarkerAt view 0) :
    parse cfg view = parseAtMarker cfg view := by
  have hl := h.lt
  have hf := find_syncMarker_eq_some.2 ⟨h, fun j hj => absurd hj (Nat.not_lt_zero j)⟩
  unfold parse
  rw [if_neg (by omega), hf]

/-- Without one, the search alone decides. -/
theorem parse_of_not_markerAt_zero (cfg : Config) {view : Bytes} (h : ¬ MarkerAt view 0) :
    (parse cfg view = .needMoreData ∧
      (view.length < 4 ∨ (∀ j, ¬ MarkerAt view j) ∧ view.length ≤ cfg.garbageCeiling)) ∨
    ((∃ h, parse cfg view = .discard view.length h) ∧ 4 ≤ view.length ∧ (∀ j, ¬ MarkerAt view j) ∧
      cfg.garbageCeiling < view.length) ∨
    (∃ k h, parse cfg view = .discard k h ∧ MarkerAt view k ∧ ∀ j < k, ¬ MarkerAt view j) := by
  unfold parse
  by_cases hl : view.length < 4
  · exact .inl ⟨by simp [hl], .inl hl⟩
  rw [if_neg hl]
  cases hf : find syncMarker view with
  | none =>
    have hn := find_syncMarker_eq_none.1 hf
    by_cases hc : cfg.garbageCeiling < view.length
    · exact .inr (.inl ⟨⟨by omega, by simp [hc]⟩, by omega, hn, hc⟩)
    · exact .inl ⟨by simp [hc], .inr ⟨hn, by omega⟩⟩
  | some k =>
    obtain ⟨hk, hj⟩ := find_syncMarker_eq_some.1 hf
    cases k with
    | zero => exact absurd hk h
    | succ k => exact .inr (.inr ⟨k + 1, Nat.succ_pos k, rfl, hk, hj⟩)

/-- Checks 3 to 6, each with the condition under which it decides. -/
theorem parseAtMarker_cases (cfg : Config) (view : Bytes) :
    (view.length < 20 ∧ parseAtMarker cfg view = .needMoreData) ∨
    (20 ≤ view.length ∧ ((le32 view 12).toNat < cfg.msgLenMin ∨ cfg.msgLenMax < (le32 view 12).toNat) ∧
      parseAtMarker cfg view = .discard 1 (Nat.le_refl 1)) ∨
    (20 ≤ view.length ∧ cfg.msgLenMin ≤ (le32 view 12).toNat ∧ (le32 view 12).toNat ≤ cfg.msgLenMax ∧
      ((view.length < (le32 view 12).toNat ∧ parseAtMarker cfg view = .needMoreData) ∨
       ((le32 view 12).toNat ≤ view.length ∧ crc32 (slice view 8 (le32 view 12).toNat) ≠ le32 view 4 ∧
          parseAtMarker cfg view = .discard 1 (Nat.le_refl 1)) ∨
       ((le32 view 12).toNat ≤ view.length ∧ crc32 (slice view 8 (le32 view 12).toNat) = le32 view 4 ∧
          ∃ h, parseAtMarker cfg view =
            .packet (packetOf (view.take (le32 view 12).toNat)) (le32 view 12).toNat h))) := by
  unfold parseAtMarker Config.headerSize
  by_cases h1 : view.length < 20
  · exact .inl ⟨h1, by simp [h1]⟩
  rw [if_neg h1]
  by_cases h2 : (le32 view 12).toNat < cfg.msgLenMin ∨ cfg.msgLenMax < (le32 view 12).toNat
  · exact .inr (.inl ⟨by omega, h2, by simp [h2]⟩)
  simp only [dif_neg h2]
  refine .inr (.inr ⟨by omega, by omega, by omega, ?_⟩)
  by_cases h3 : view.length < (le32 view 12).toNat
  · exact .inl ⟨h3, by simp [h3]⟩
  rw [if_neg h3]
  by_cases h4 : crc32 (slice view 8 (le32 view 12).toNat) = le32 view 4
  · exact .inr (.inr ⟨by omega, h4, Nat.le_trans cfg.headerFits (by omega), by simp [h4]⟩)
  · exact .inr (.inl ⟨by omega, h4, by simp [h4]⟩)

/-- No decision counts more bytes than the view has. -/
theorem parse_count_le_length (cfg : Config) (view : Bytes) : (parse cfg view).count ≤ view.length := by
  by_cases hm : MarkerAt view 0
  · rw [parse_of_markerAt_zero _ hm]
    have hl := hm.lt
    obtain ⟨-, he⟩ | ⟨-, -, he⟩ | ⟨-, -, -, ⟨-, he⟩ | ⟨-, -, he⟩ | ⟨h, -, _, he⟩⟩ := parseAtMarker_cases cfg view <;>
      rw [he] <;> simp only [Decision.count] <;> omega
  · obtain ⟨he, -⟩ | ⟨⟨_, he⟩, -⟩ | ⟨k, _, he, h, -⟩ := parse_of_not_markerAt_zero cfg hm <;>
      rw [he] <;> simp only [Decision.count] <;> first | omega | skip
    have := h.lt
    omega

/-- A valid frame holds its header. -/
theorem ValidFrame.header_le {cfg : Config} {f : Bytes} (h : ValidFrame cfg f) : 20 ≤ f.length :=
  Nat.le_trans cfg.headerFits h.2.1

end Sys2Proof.Machine
end

