-- ==== Sys2Proof/Laws/PerInstr.lean ====
section
/-! SUPPORT. What is said of the instructions as syntax, one lemma per constructor: each has a command word of the table of
spec/30_encoding.md R77. -/

namespace Sys2Proof.Laws.Opcode

/-- The command word of `i` is one of the twelve codes `0x01`..`0x0C` of R77. -/
def Statement (i : Instr) : Prop := 1 ≤ (encode i).op.toNat ∧ (encode i).op.toNat ≤ 12

theorem crc16 (data : Bytes) : Statement (.crc16 data) := by simp [Statement, Sys2Proof.encode]
theorem crc32 (data : Bytes) : Statement (.crc32 data) := by simp [Statement, Sys2Proof.encode]
theorem b64enc (data : Bytes) : Statement (.b64enc data) := by simp [Statement, Sys2Proof.encode]
theorem b64dec (text : Bytes) : Statement (.b64dec text) := by simp [Statement, Sys2Proof.encode]
theorem put (bytes : Bytes) : Statement (.put bytes) := by simp [Statement, Sys2Proof.encode]
theorem peek (n : Nat) : Statement (.peek n) := by simp [Statement, Sys2Proof.encode]
theorem consume (n : Nat) : Statement (.consume n) := by simp [Statement, Sys2Proof.encode]
theorem reset : Statement .reset := by simp [Statement, Sys2Proof.encode]
theorem parse (view : Bytes) : Statement (.parse view) := by simp [Statement, Sys2Proof.encode]
theorem tryExtract : Statement .tryExtract := by simp [Statement, Sys2Proof.encode]
theorem encode (uri body : Bytes) (sequence : Nat) : Statement (.encode uri body sequence) := by simp [Statement, Sys2Proof.encode]
theorem send (handle : Handle) (message : Message) (sequence : Nat) : Statement (.send handle message sequence) := by simp [Statement, Sys2Proof.encode]

end Sys2Proof.Laws.Opcode
end

