-- ==== Sys2Proof/Laws/Step.lean ====
section
/-! SUPPORT. One step, by the event that waits: the lemmas the whole-machine proofs cite instead of unfolding `step`. -/

namespace Sys2Proof.Machine

theorem step_of_run {s t : State} {i : Instr} (h : s.issue = .run i t) : step s = exec i t := by
  simp [step, h]

theorem step_of_done {s t : State} (h : s.issue = .done t) : step s = .next t := by
  simp [step, h]

theorem step_of_refuse {s : State} {r : Refusal} (h : s.issue = .refuse r) : step s = .refused r := by
  simp [step, h]

/-- With no event waiting nothing happens. -/
theorem step_idle {s : State} (h : s.events = []) : step s = .next s := step_of_done (State.issue_nil h)

/-- `run` is the host's run of this machine. -/
theorem run_eq_core_run : ∀ (n : Nat) (s : State), run n s = Host.Core.run Sys2Proof.core n s
  | 0, _ => rfl
  | n + 1, s => by
    simp only [run, Host.Core.run]
    cases h : step s with
    | next t => rw [show Sys2Proof.core.step s = .next t from h]; exact run_eq_core_run n t
    | fault r => rw [show Sys2Proof.core.step s = .fault r from h]; rfl
    | refused r => rw [show Sys2Proof.core.step s = .refused r from h]; rfl

theorem run_zero (s : State) : run 0 s = .next s := rfl

theorem run_succ {s t : State} (n : Nat) (h : step s = .next t) : run (n + 1) s = run n t := by
  rw [run, h]

/-- A run that answers a next state answers one after its first step. -/
theorem run_succ_next {s t : State} {n : Nat} (h : run (n + 1) s = .next t) :
    ∃ u, step s = .next u ∧ run n u = .next t := by
  rw [run] at h
  cases hs : step s with
  | next u => rw [hs] at h; exact ⟨u, rfl, h⟩
  | fault r => rw [hs] at h; cases h
  | refused r => rw [hs] at h; cases h

/-- An invariant that every step keeps holds after every run: the induction, once. -/
theorem run_induction {P : State → Prop} (hstep : ∀ s t, P s → step s = .next t → P t) :
    ∀ (n : Nat) (s t : State), P s → run n s = .next t → P t := by
  intro n
  induction n with
  | zero => intro s t hs h; cases h; exact hs
  | succ n ih =>
    intro s t hs h
    obtain ⟨u, hu, ht⟩ := run_succ_next h
    exact ih u t (hstep s u hs hu) ht

theorem run_add {t : State} (m : Nat) : ∀ (n : Nat) (s : State), run n s = .next t → run (n + m) s = run m t := by
  intro n
  induction n with
  | zero => intro s h; cases h; rw [Nat.zero_add]
  | succ n ih =>
    intro s h
    obtain ⟨u, hu, ht⟩ := run_succ_next h
    rw [show n + 1 + m = (n + m) + 1 by omega, run_succ _ hu, ih u ht]

/-- Everything a step can be. -/
theorem issue_cases (s : State) :
    (s.events = [] ∧ s.issue = .done s) ∨
    (∃ es, s.events = .cancel :: es ∧ s.issue = .done { s with events := es, inFlight := .idle }) ∨
    (∃ es, s.events = .stopProducer :: es ∧ s.issue = .done { s with events := es, producerOn := false }) ∨
    (∃ es, s.events = .hardwareReset :: es ∧ s.issue =
      .done { s with events := es, acc := [], inFlight := .idle, report := s.report.noteRemoval }) ∨
    (∃ es, s.events = .turn .producer :: es ∧ s.producerOn = false ∧
      s.issue = .done { s with events := es, active := .producer }) ∨
    (∃ es, s.events = .turn .consumer :: es ∧ s.inFlight ≠ .idle ∧
      s.issue = .run .tryExtract { s with events := es, active := .consumer, report := s.reportAfterPhase }) ∨
    (∃ a es, s.events = .turn a :: es ∧ (a = .producer → s.producerOn = true) ∧
      (a = .consumer → s.inFlight = .idle) ∧
      s.issue = State.fetch { s with events := es, active := a } a) := by
  rcases he : s.events with _ | ⟨e, es⟩
  · exact .inl ⟨rfl, State.issue_nil he⟩
  · cases e with
    | cancel => exact .inr (.inl ⟨es, rfl, State.issue_cancel he⟩)
    | stopProducer => exact .inr (.inr (.inl ⟨es, rfl, State.issue_stopProducer he⟩))
    | hardwareReset => exact .inr (.inr (.inr (.inl ⟨es, rfl, State.issue_hardwareReset he⟩)))
    | turn a =>
      have hi := State.issue_turn he
      cases a with
      | producer =>
        rw [State.takeTurn_producer] at hi
        by_cases hp : s.producerOn = true
        · simp only [hp, if_true] at hi
          exact .inr (.inr (.inr (.inr (.inr (.inr ⟨.producer, es, rfl, fun _ => hp, by simp, by rw [hi]; simp [hp]⟩)))))
        · simp only [hp, if_false, Bool.false_eq_true] at hi
          exact .inr (.inr (.inr (.inr (.inl ⟨es, rfl, by simpa using hp, by rw [hi]; simpa using hp⟩))))
      | consumer =>
        rw [State.takeTurn_consumer] at hi
        by_cases hf : s.inFlight = .idle
        · simp only [hf, if_true] at hi
          exact .inr (.inr (.inr (.inr (.inr (.inr ⟨.consumer, es, rfl, by simp, fun _ => hf, by rw [hi]; simp [hf]⟩)))))
        · simp only [hf, if_false] at hi
          exact .inr (.inr (.inr (.inr (.inr (.inl ⟨es, rfl, hf, hi⟩)))))

end Sys2Proof.Machine
end

