-- ==== Sys2Proof/Tests/Slice0.lean ====
section
/-! SUPPORT. The model's own tests. Expected values are those of spec/95_test_vectors.md (V<n>, P<n>) or of the rule named; the second part
gives, for each statement with hypotheses, a state and operands that meet them, clause by clause, at the edges of the ranges. -/

set_option Elab.async false

namespace Sys2Proof.Tests

open Sys2Proof.Machine

/-! ### Frames and states -/

/-- V3, RIGHT: a push event. -/
def v3 : Bytes :=
  [0xEB, 0xCF, 0x79, 0x00, 0x04, 0xF5, 0x9B, 0x94, 0x00, 0x00, 0x14, 0x03, 0x1F, 0x00, 0x00, 0x00, 0xFF, 0xFF, 0x02, 0x00, 0x2F, 0x65, 0x00, 0x7B, 0x22, 0x69, 0x64, 0x22, 0x3A, 0x31, 0x7D]

/-- V1, RIGHT: `ENCODE "/api/module/init" "{}" 0`. -/
def v1 : Bytes :=
  [0xEB, 0xCF, 0x79, 0x00, 0x37, 0x63, 0x94, 0x63, 0x01, 0x00, 0x14, 0x11, 0x27, 0x00, 0x00, 0x00, 0x00, 0x00, 0x00, 0x01,
   0x2F, 0x61, 0x70, 0x69, 0x2F, 0x6D, 0x6F, 0x64, 0x75, 0x6C, 0x65, 0x2F, 0x69, 0x6E, 0x69, 0x74, 0x00, 0x7B, 0x7D]

/-- V2, RIGHT. -/
def v2 : Bytes :=
  [0xEB, 0xCF, 0x79, 0x00, 0x7F, 0xFB, 0xB6, 0x30, 0x00, 0x00, 0x14, 0x03, 0x19, 0x00, 0x00, 0x00, 0x07, 0x00, 0x01, 0x00,
   0x2F, 0x72, 0x00, 0x6F, 0x6B]

/-- V46: a frame of header only. -/
def v46 : Bytes :=
  [0xEB, 0xCF, 0x79, 0x00, 0x5F, 0x19, 0xA4, 0x83, 0x00, 0x00, 0x14, 0x00, 0x14, 0x00, 0x00, 0x00, 0x05, 0x00, 0x01, 0x00]

/-- V1's URI and body. -/
def uri1 : Bytes := slice v1 20 36
def body1 : Bytes := [0x7B, 0x7D]

/-- The vectors' capacity `C = 8`, with the ceiling and the longest frame small beside it. -/
def small : Config := { capacity := 8, garbageCeiling := 4, msgLenMax := 40, crc16ElseShift := .right }

/-- A state after reset, with the content and the parameters given. -/
def holding (cfg : Config) (acc : Bytes) : State := { State.reset with config := cfg, acc := acc }

/-- The same with one request of one agent, whose turn it is. -/
def asking (a : Agent) (c : Command) (s : State) : State := { s.setQueue a [c] with events := [.turn a] }

/-- The result one operation returns, if it completes. -/
def resultOf (i : Instr) (s : State) : Option Result :=
  match exec i s with
  | .next t => t.delivered.getLast?.map Delivery.result
  | .fault _ => none
  | .refused _ => none

/-- The content one operation leaves, if it completes. -/
def accAfter (i : Instr) (s : State) : Option Bytes :=
  match exec i s with
  | .next t => some t.acc
  | .fault _ => none
  | .refused _ => none

/-! ### Decoding: the codes of 30_encoding.md R77, written out bit by bit -/

theorem test_decode_checksums :
    decode { op := 0b00000001, operands := { data := [0x41] } } = .ok (.crc16 [0x41]) ∧
    decode { op := 0b00000010, operands := { data := [0x41] } } = .ok (.crc32 [0x41]) := by decide

theorem test_decode_base64 :
    decode { op := 0b00000011, operands := { data := [0x66] } } = .ok (.b64enc [0x66]) ∧
    decode { op := 0b00000100, operands := { data := [0x5A] } } = .ok (.b64dec [0x5A]) := by decide

theorem test_decode_accumulator :
    decode { op := 0b00000101, operands := { data := [1] } } = .ok (.put [1]) ∧
    decode { op := 0b00000110, operands := { num := 2 } } = .ok (.peek 2) ∧
    decode { op := 0b00000111, operands := { num := 3 } } = .ok (.consume 3) ∧
    decode { op := 0b00001000 } = .ok .reset := by decide

theorem test_decode_framer :
    decode { op := 0b00001001, operands := { data := [0xEB] } } = .ok (.parse [0xEB]) ∧
    decode { op := 0b00001010 } = .ok .tryExtract := by decide

theorem test_decode_encoder :
    decode { op := 0b00001011, operands := { data := [0x2F], body := [0x7B], num := 9 } } = .ok (.encode [0x2F] [0x7B] 9) ∧
    decode { op := 0b00001100, operands := { data := [0x2F], body := [0x7B], num := 9, handle := { name := 4 } } } =
      .ok (.send { name := 4 } { uri := [0x2F], body := [0x7B] } 9) := by
  decide

/-- V94: command words `0x00` and `0x0D`. -/
theorem test_decode_refuses :
    decode { op := 0x00 } = .error (.badOp 0x00) ∧ decode { op := 0x0D } = .error (.badOp 0x0D) ∧
    decode { op := 0xFF } = .error (.badOp 0xFF) := by decide

theorem test_table_words : decodeTableWord 8 0x05 = some (.put []) ∧ decodeTableWord 8 0x0A = some .tryExtract ∧
    decodeTableWord 8 0x0D = none ∧ decodeTableWord 16 0x05 = none := by decide

/-! ### Well-formedness: an ill-formed term for each check -/

theorem test_wellFormed_peek : (Instr.peek 9).wellFormed small = false ∧ (Instr.peek 8).wellFormed small = true := by decide

theorem test_wellFormed_consume :
    (Instr.consume 9).wellFormed small = false ∧ (Instr.consume 8).wellFormed small = true := by decide

/-! ### Vectors -/

/-- V11 and V17, both variants. -/
theorem test_crc16 : crc16 .right [0x00] = 0x00E1 ∧ crc16 .left [0x00] = 0xE1F0 ∧
    crc16 .right [0x31, 0x32, 0x33, 0x34, 0x35, 0x36, 0x37, 0x38, 0x39] = 0x0039 ∧
    crc16 .left [0x31, 0x32, 0x33, 0x34, 0x35, 0x36, 0x37, 0x38, 0x39] = 0x29B1 := by decide +kernel

/-- V12, V15, V18. -/
theorem test_crc16_collisions : resultOf (.crc16 [0xFF]) State.reset = some (.u16 0) ∧ crc16 .right [0x41] = 0x00DB ∧
    crc16 .left [0x27, 0, 0, 0, 0, 0, 0, 1] = 0x9D6F := by decide +kernel

/-- V10, V17. -/
theorem test_crc32 : crc32 [] = 0 ∧ crc32 [0x31, 0x32, 0x33, 0x34, 0x35, 0x36, 0x37, 0x38, 0x39] = 0xCBF43926 := by
  decide +kernel

/-- V12, V14. -/
theorem test_crc32_bytes : resultOf (.crc32 [0xFF]) State.reset = some (.u32 0xFF000000) ∧ crc32 [0x80] = 0x3FBA6CAD := by
  decide +kernel

/-- V50, V51, V52, V59, V60. -/
theorem test_b64enc : b64Encode [] = [] ∧ b64Encode [0x66] = [0x5A, 0x67, 0x3D, 0x3D] ∧
    b64Encode [0x66, 0x6F] = [0x5A, 0x6D, 0x38, 0x3D] ∧ b64Encode [0xFB, 0xFF] = [0x2B, 0x2F, 0x38, 0x3D] ∧
    resultOf (.b64enc [0, 1, 2, 3, 4, 5, 6, 7, 8, 9]) State.reset =
      some (.bytes [0x41, 0x41, 0x45, 0x43, 0x41, 0x77, 0x51, 0x46, 0x42, 0x67, 0x63, 0x49, 0x43, 0x51, 0x3D, 0x3D]) := by
  decide +kernel

/-- V62, V64, V66, V67. -/
theorem test_b64dec : resultOf (.b64dec [0x41, 0x41, 0x41]) State.reset = some (.err .b64Length) ∧
    resultOf (.b64dec [0x51, 0x55, 0x49, 0x3D]) State.reset = some (.bytes [0x41, 0x42]) ∧
    resultOf (.b64dec [0x51, 0x52, 0x3D, 0x3D]) State.reset = some (.bytes [0x41]) ∧
    resultOf (.b64dec [0x51, 0x21, 0x4A, 0x44]) State.reset = some (.bytes [0x40, 0x02, 0x43]) := by decide +kernel

/-- V69, V70, V71, V72: odd places of `=`. -/
theorem test_b64dec_pads : b64Decode [0x3D, 0x3D, 0x3D, 0x3D] = .ok [0] ∧ b64Decode [0x41, 0x3D, 0x3D, 0x3D] = .ok [0] ∧
    b64Decode [0x41, 0x41, 0x3D, 0x41] = .ok [0, 0, 0] ∧ b64Decode [0x3D, 0x41, 0x41, 0x41] = .ok [0, 0, 0] := by
  decide +kernel

/-- V74, V76, V77. -/
theorem test_put : accAfter (.put [6, 7, 8]) (holding small [1, 2, 3, 4, 5]) = some [1, 2, 3, 4, 5, 6, 7, 8] ∧
    resultOf (.put []) (holding small [1, 2, 3, 4, 5, 6, 7, 8]) = some .ok ∧
    resultOf (.put [6, 7, 8, 9]) (holding small [1, 2, 3, 4, 5]) = some (.err .capacity) ∧
    accAfter (.put [6, 7, 8, 9]) (holding small [1, 2, 3, 4, 5]) = some [1, 2, 3, 4, 5] := by decide

/-- V78, V79, V80. -/
theorem test_peek : resultOf (.peek 3) (holding small [1, 2, 3, 4, 5, 6, 7, 8]) = some (.bytes [1, 2, 3]) ∧
    resultOf (.peek 0) (holding small [1, 2]) = some (.bytes []) ∧
    accAfter (.peek 2) (holding small [1, 2]) = some [1, 2] ∧ accAfter (.peek 3) (holding small [1, 2]) = none := by decide

/-- V81, V82, V83. -/
theorem test_consume : accAfter (.consume 3) (holding small [1, 2, 3, 4, 5, 6, 7, 8]) = some [4, 5, 6, 7, 8] ∧
    accAfter (.consume 5) (holding small [4, 5, 6, 7, 8]) = some [] ∧
    accAfter (.consume 3) (holding small [1, 2]) = none := by decide

/-- V84. -/
theorem test_reset : accAfter .reset (holding small [1, 2, 3, 4, 5, 6, 7, 8]) = some [] ∧
    resultOf .reset (holding small [1]) = some .ok := by decide

/-- V35, V31 (byte 14 changed), V42 (byte 5 changed). -/
theorem test_parse : parse Config.default v1 = .packet { uri := uri1, body := body1, type := 0, serial := 0 } 39 (by decide) ∧
    parse Config.default (v1.set 14 0x01) = .needMoreData ∧ parse Config.default (v1.set 5 0xE3) = .discard 1 (by decide) := by
  decide +kernel

/-- V46, V48: the header-only frame, and the clamped windows. -/
theorem test_parse_clamps : parse Config.default v46 = .packet { uri := [], body := [], type := 1, serial := 5 } 20 (by decide) ∧
    parse Config.default (v1.take 4 ++ [0x38, 0x19, 0x83, 0xAB, 0x01, 0x00, 0x1E, 0xC8] ++ v1.drop 12) =
      .packet { uri := [0x65, 0x2F, 0x69, 0x6E, 0x69, 0x74], body := [], type := 0, serial := 0 } 39 (by decide) := by decide +kernel

/-- P2: the first call discards 5 bytes, the second delivers V2; three turns each. -/
theorem test_tryExtract :
    (match run 6 { holding Config.default ([0xAA, 0x55, 0x00, 0xEB, 0xCF] ++ v2) with
        consumerQueue := [tryExtractCommand, tryExtractCommand], events := List.replicate 6 consumerTurn } with
      | .next t => some (t.acc, t.resultsOf .consumer)
      | .fault _ => none
      | .refused _ => none) =
    some ([], [.decision (.discard 5 (by decide)),
      .decision (.packet { uri := [0x2F, 0x72], body := [0x6F, 0x6B], type := Config.typeResponse, serial := 7 } 25 (by decide))]) := by decide +kernel

/-- V86; A2's 21 bytes (V87). -/
theorem test_encode : resultOf (.encode uri1 body1 0) State.reset = some (.bytes v1) ∧
    resultOf (.encode [] [] 0x12345) State.reset = some (.bytes [0xEB, 0xCF, 0x79, 0x00, 0xE6, 0xA2, 0xD7, 0xFE, 0x01,
      0x00, 0x14, 0x01, 0x15, 0x00, 0x00, 0x00, 0x45, 0x23, 0x00, 0x01, 0x00]) := by decide +kernel

/-- V1 LEFT: bytes 4..9. -/
theorem test_encode_left :
    (encodeFrame { Config.default with crc16ElseShift := .left } uri1 body1 0).map (slice · 4 10) =
      .ok [0x43, 0xD2, 0x95, 0x8E, 0x6F, 0x9D] := by decide +kernel

/-- V92, V93. -/
theorem test_send :
    resultOf (.send { name := 4 } { uri := uri1, body := body1 } 0) { State.reset with writeReplies := [.wrote 39] } = some (.count 39) ∧
    resultOf (.send { name := 4 } { uri := uri1, body := body1 } 0) { State.reset with writeReplies := [.failed] } = some (.err .transport) := by
  decide +kernel

/-- V92: TX carries V1, on the handle given. V89: a URI of 255 bytes. -/
theorem test_send_tx :
    (match exec (.send { name := 4 } { uri := uri1, body := body1 } 0) { State.reset with writeReplies := [.wrote 39] } with
      | .next t => t.tx.map fun w => (w.handle, w.frame)
      | .fault _ => []
      | .refused _ => []) = [({ name := 4 }, v1)] ∧
    resultOf (.send { name := 4 } { uri := List.replicate 255 0x61, body := [] } 0) State.reset = some (.err .fieldRange) := by decide +kernel

/-! ### Witnesses: every statement's hypotheses are met by a concrete state -/

/-- V49, a push event; and V2, a response (R6). -/
theorem test_types : (∃ p h, parse Config.default v3 = .packet p 31 h ∧ p.type = Config.typePushEvent) ∧
    (∃ p h, parse Config.default v2 = .packet p 25 h ∧ p.type = Config.typeResponse) :=
  ⟨⟨packetOf v3, by decide, by decide +kernel⟩, ⟨packetOf v2, by decide, by decide +kernel⟩⟩

theorem witness_StepRunsDecodedOperation :
    let s := asking .producer (encode (.put [1])) State.reset
    s.events = [.turn .producer] ∧ s.queue .producer = [encode (.put [1])] ∧
      decode (encode (.put [1])) = .ok (.put [1]) ∧ s.producerOn = true ∧
      ¬ OutsideTable .producer (.put [1]) ∧ ∀ n, ¬ NotReported s n (.put [1]) :=
  ⟨rfl, rfl, rfl, rfl, by simp [OutsideTable], by simp [NotReported]⟩

theorem witness_StepRunsDecodedOperation_consumer :
    let s := asking .consumer (encode (.peek 0)) State.reset
    s.events = [.turn .consumer] ∧ s.queue .consumer = [encode (.peek 0)] ∧
      decode (encode (.peek 0)) = .ok (.peek 0) ∧ s.inFlight = .idle ∧
      ¬ OutsideTable .consumer (.peek 0) ∧ ∀ n, ¬ NotReported s n (.peek 0) :=
  ⟨rfl, rfl, rfl, rfl, by simp [OutsideTable], by simp [NotReported]⟩

/-- Five bytes of noise and one more. The parser's count of the five is 5, by the ceiling 4 (R122 (a)). -/
def noise : Bytes := [9, 9, 9, 9, 9, 1]

/-- The consumer has taken a copy of the five bytes and parsed it, and is to `CONSUME 5`. -/
def parsedByHand : State :=
  asking .consumer (encode (.consume 5)) { holding small noise with
    report := { snapshots := [[9, 9, 9, 9, 9]], past := [], parsed := [[9, 9, 9, 9, 9]] } }

theorem parsedByHand_inv : BlockInv parsedByHand := ⟨by decide, trivial, by decide, by decide⟩

theorem parsedByHand_reported : Reported parsedByHand 5 := by decide

/-- The same after the `CONSUME`: the snapshot is a past one. -/
def consumedByHand : State := { parsedByHand with report := parsedByHand.report.noteRemoval }

/-- R116: the parser's count is consumed; another is refused; after it another `CONSUME` is refused (R174). -/
theorem witness_ReportedCountIsConsumed :
    parsedByHand.events = consumerTurn :: [] ∧ parsedByHand.consumerQueue = encode (.consume 5) :: [] ∧
    parsedByHand.inFlight = .idle ∧ (Reported parsedByHand 5 ∧ BlockInv parsedByHand) ∧
    NotReported parsedByHand 4 (.consume 4) ∧ NotReported consumedByHand 5 (.consume 5) ∧
    step { parsedByHand with consumerQueue := [encode (.consume 4)] } = .refused (.consumeNotReported 4) :=
  ⟨rfl, rfl, rfl, ⟨parsedByHand_reported, parsedByHand_inv⟩, by decide, by decide, rfl⟩

/-- V81: a `CONSUME` with no parse before it. -/
theorem witness_ReportedCountIsConsumed_free :
    let s := asking .consumer (encode (.consume 3)) (holding small [1, 2, 3, 4, 5, 6, 7, 8])
    ¬ HasParsed s.report ∧ 3 ≤ s.size ∧ step s = .next { s with
      events := [], consumerQueue := [], acc := [4, 5, 6, 7, 8], delivered := [{ agent := .consumer, result := .ok }] } :=
  ⟨by decide, by decide, rfl⟩

/-- A copy by `PEEK` and by T1; a parse by hand and by T2; a removal by `CONSUME` and by T3; a request that is none of these. -/
theorem witness_ReportFollowsParser :
    (let s := asking .consumer (encode (.peek 5)) (holding small noise)
     Copies s [9, 9, 9, 9, 9] ∧ (∃ t, step s = .next t ∧ t.report.snapshots = [[9, 9, 9, 9, 9]])) ∧
    Copies (asking .consumer tryExtractCommand (holding small noise)) noise ∧
    (let s := asking .consumer (encode (.parse [9, 9, 9, 9, 9])) (holding small [1])
     Parses s [9, 9, 9, 9, 9] ∧ step s = .next { s with
       events := [], consumerQueue := [], report := { s.report with parsed := [[9, 9, 9, 9, 9]] }
       delivered := [{ agent := .consumer, result := .decision (.discard 5 (by decide)) }] }) ∧
    Parses { parsedByHand with inFlight := .viewed [7] } [7] ∧ Removes parsedByHand ∧
    Removes { parsedByHand with inFlight := .decided [9, 9, 9, 9, 9] (.discard 5 (by decide)) } ∧
    (let s := asking .consumer (encode (.crc32 [])) (holding small noise)
     (∀ v, ¬ Copies s v) ∧ (∀ view, ¬ Parses s view) ∧ ¬ Removes s) :=
  ⟨⟨.inl ⟨5, ⟨rfl, _, _, rfl, rfl⟩, rfl⟩, _, rfl, rfl⟩, .inr ⟨⟨rfl, _, _, rfl, rfl⟩, rfl⟩, ⟨.inl ⟨rfl, _, _, rfl, rfl⟩, rfl⟩,
    .inr rfl, .inl ⟨5, rfl, _, _, rfl, rfl⟩, .inr (.inr ⟨_, _, rfl, by decide⟩),
    by simp [Copies, Requests, asking, holding, State.reset, decode, encode],
    by simp [Parses, Requests, asking, holding, State.reset, decode, encode],
    by simp [Removes, Requests, asking, holding, State.reset, decode, encode]⟩

/-- Beside a parse, and a reset, a `PEEK` of the whole content. -/
theorem witness_ParsesHaveNoOrder :
    let s := { parsedByHand with events := [consumerTurn, consumerTurn] }
    BlockInv s ∧ s.events = consumerTurn :: consumerTurn :: [] ∧ s.inFlight = .idle ∧ 6 ≤ s.size := ⟨parsedByHand_inv, rfl, rfl, by decide⟩

/-- A chunk that fits to the last byte, and one too long by one. -/
theorem witness_ParseAndFeedHaveNoOrder :
    let s := { parsedByHand with producerQueue := [encode (.put [1, 2])], consumerQueue := [encode (.parse [9, 9])] }
    s.inFlight = .idle ∧ s.producerOn = true ∧ s.size + [1, 2].length ≤ s.config.capacity ∧
      s.config.capacity < s.size + [1, 2, 3].length := by decide

theorem witness_CancelledTryExtractLeavesReport :
    let s := { parsedByHand with consumerQueue := [tryExtractCommand, encode (.consume 5)], events := [consumerTurn, .cancel, consumerTurn] }
    BlockInv s ∧ Reported s 5 ∧ s.inFlight = .idle ∧ s.consumerQueue = tryExtractCommand :: encode (.consume 5) :: [] ∧
      s.events = List.replicate 1 consumerTurn ++ .cancel :: consumerTurn :: [] :=
  ⟨parsedByHand_inv, parsedByHand_reported, rfl, rfl, rfl⟩

/-- The content that remains when a consumer issues these operations, the content, the producer's feeds and the turns given; or why it is
refused. -/
def afterTurns (acc : Bytes) (consumer feeds : List Instr) (turns : List Event) : Option Bytes × Option Refusal :=
  match run turns.length { holding small acc with
      consumerQueue := consumer.map encode, producerQueue := feeds.map encode, events := turns } with
  | .next t => (some t.acc, none)
  | .fault _ => (none, none)
  | .refused r => (none, some r)

/-- R57: neither another parse, nor the producer's feed, nor a parse before its `PEEK`, matters to the `CONSUME`. -/
theorem test_parse_is_order_free :
    afterTurns noise [.peek 5, .parse [9, 9, 9, 9, 9], .parse [], .consume 5] [] (List.replicate 4 consumerTurn) = (some [1], none) ∧
    afterTurns noise [.parse [9, 9, 9, 9, 9], .peek 5, .consume 4] [] (List.replicate 3 consumerTurn) = (none, some (.consumeNotReported 4)) ∧
    afterTurns [1] [.parse [1, 2], .consume 1] [.put [2]] [consumerTurn, producerTurn, consumerTurn] = (some [2], none) ∧
    afterTurns [1] [.parse [1, 2], .consume 1] [.put [2]] [producerTurn, consumerTurn, consumerTurn] = (some [2], none) := by decide

/-- R116: the parse inside a `TRY_EXTRACT` is a parse, here one that waits (R121). -/
theorem test_consume_after_tryExtract :
    afterTurns [9, 9, 9] [.tryExtract, .consume 3] [] (List.replicate 4 consumerTurn) = (none, some (.consumeNotReported 3)) := by decide

/-- R174: a snapshot parsed after a `CONSUME` of its bytes reports nothing that may be consumed. -/
theorem test_stale_snapshot :
    afterTurns noise [.peek 5, .consume 4, .parse [9, 9, 9, 9, 9], .consume 1] [] (List.replicate 4 consumerTurn) =
      (none, some (.consumeNotReported 1)) := by decide

theorem witness_StepContinuesTryExtract :
    let s := { State.reset with inFlight := .viewed [], events := [consumerTurn] }
    s.events = consumerTurn :: [] ∧ s.inFlight ≠ .idle := by decide

theorem witness_UnknownCodeReturnsBadOp :
    (let s := asking .producer { op := 0x00 } State.reset
     s.events = [.turn .producer] ∧ s.queue .producer = [{ op := 0x00 }] ∧ s.producerOn = true) ∧
    (let s := asking .consumer { op := 0x0D } State.reset
     s.events = [.turn .consumer] ∧ s.queue .consumer = [{ op := 0x0D }] ∧ 0x0D ≤ (0x0D : Byte).toNat ∧
       s.inFlight = .idle) := by decide

theorem witness_SecondProducerOrConsumerIsRefused :
    step (asking .producer (encode .reset) State.reset) = .refused (.notOpenToAgent .producer .reset) ∧
    step (asking .consumer (encode (.put [1])) State.reset) = .refused (.notOpenToAgent .consumer (.put [1])) :=
  ⟨rfl, rfl⟩

theorem witness_CancellationLeavesBytes :
    { holding small [1, 2] with inFlight := .viewed [1, 2], events := [.cancel] }.events = .cancel :: [] := by decide

theorem witness_HardwareResetEqualsReset :
    { holding small [1, 2] with inFlight := .viewed [1, 2], events := [.hardwareReset] }.events = .hardwareReset :: [] := by
  decide

theorem witness_StoppedProducerIssuesNothing_event :
    { State.reset with events := [.stopProducer] }.events = .stopProducer :: [] := rfl

theorem witness_StoppedProducerIssuesNothing :
    let s := { asking .producer (encode (.put [1])) State.reset with producerOn := false }
    s.producerOn = false ∧ run 1 s = .next { s with active := .producer, events := [] } := ⟨rfl, rfl⟩

theorem witness_RunKeepsParameters :
    run 1 (asking .consumer (encode .reset) (holding small [1])) =
      .next { holding small [] with delivered := [{ agent := .consumer, result := .ok }] } := rfl

theorem witness_DecodeEncodeAgree :
    decode { op := 0x06, operands := { num := 3 } } = .ok (.peek 3) ∧ 1 ≤ (0x01 : Byte).toNat ∧ (0x0C : Byte).toNat ≤ 12 := by
  decide

/-- A state with a decision to apply, the accumulator full, T1 and T2 noted. -/
def pending : State :=
  { holding small [9, 9, 9, 9, 9, 1, 2, 3] with
    inFlight := .decided [9, 9, 9, 9, 9] (parse small [9, 9, 9, 9, 9])
    report := { snapshots := [[9, 9, 9, 9, 9]], past := [], parsed := [[9, 9, 9, 9, 9]] }
    events := [consumerTurn] }

theorem witness_StepKeepsBlockInvariant :
    BlockInv pending ∧ step pending = .next
      { pending with
        acc := [1, 2, 3], inFlight := .idle, report := { pending.report with snapshots := [], past := [[9, 9, 9, 9, 9]] }, events := []
        delivered := [{ agent := .consumer, result := .decision (.discard 5 (by decide)) }] } := by
  refine ⟨⟨by decide, ⟨by decide, rfl⟩, by decide, by decide⟩, by rfl⟩

theorem witness_FaultExactlyBeyondSize :
    exec (.peek 1) State.reset = .fault .peekBeyondSize ∧ exec (.consume 1) State.reset = .fault .consumeBeyondSize ∧
    exec .tryExtract { State.reset with inFlight := .decided [1] (.discard 1 (by decide)) } = .fault .consumeBeyondSize :=
  ⟨rfl, rfl, rfl⟩

theorem witness_TryExtractNeverFaults :
    let s := asking .consumer (encode (.peek 1)) State.reset
    BlockInv s ∧ step s = .fault .peekBeyondSize := ⟨⟨by decide, trivial, by decide⟩, rfl⟩

theorem witness_ErrorChangesNoState :
    let s := holding small [1, 2, 3, 4, 5, 6, 7, 8]
    exec (.put [9]) s = .next (s.raise .capacity) ∧
      (s.raise .capacity).delivered = s.delivered ++ [{ agent := s.active, result := .err .capacity }] := ⟨rfl, rfl⟩

theorem witness_ErrorChangesNoState_transport :
    let s := { State.reset with writeReplies := [.failed] }
    ∃ t, exec (.send { name := 4 } { uri := [], body := [] } 0) s = .next t ∧
      t.delivered = s.delivered ++ [{ agent := s.active, result := .err .transport }] := ⟨_, rfl, rfl⟩

theorem witness_StatelessOperationsReadOnlyArguments :
    ([.crc16 [], .crc32 [], .b64enc [], .b64dec [], .parse [], .encode [] [] 0] : List Instr).all stateless = true := by decide

theorem witness_PutAppendsWholeChunk :
    (holding small [1, 2, 3, 4, 5]).size + [6, 7, 8].length ≤ small.capacity := by decide

theorem witness_PutBeyondCapacityKeepsNothing :
    small.capacity < (holding small [1, 2, 3, 4, 5, 6, 7, 8]).size + [9].length := by decide

theorem witness_PeekReadsFront_ConsumeRemovesFront :
    2 ≤ (holding small [1, 2]).size ∧ (holding small [1, 2]).size < 3 := by decide

theorem witness_ProducerTouchesOnlyByFeed :
    let s := asking .producer (encode (.put [1])) State.reset
    let t := { State.reset with
      acc := [1], active := .producer, delivered := [{ agent := .producer, result := .ok }] }
    s.events = producerTurn :: [] ∧ s.producerOn = true ∧ s.producerQueue = encode (.put [1]) :: [] ∧
      step s = .next t ∧ t.acc ≠ s.acc := ⟨rfl, rfl, rfl, rfl, by decide⟩

theorem witness_AppendAtTailRemoveAtFront_consumer :
    step pending = .next
      { pending with
        acc := [1, 2, 3], inFlight := .idle, report := { pending.report with snapshots := [], past := [[9, 9, 9, 9, 9]] }, events := []
        delivered := [{ agent := .consumer, result := .decision (.discard 5 (by decide)) }] } ∧ pending.events = consumerTurn :: [] :=
  ⟨by rfl, rfl⟩

theorem witness_Base64RefusesOnlyBadLength : [0x41, 0x41, 0x41].length % 4 ≠ 0 ∧ ([] : Bytes).length % 4 = 0 := by decide

theorem witness_Base64BytesOfGroups : ([0x51, 0x3D, 0x3D, 0x3D] : Bytes).length % 4 = 0 := by decide

theorem witness_ShortViewWaits : ([0xEB, 0xCF, 0x79] : Bytes).length < 4 := by decide

/-- One byte above the ceiling, at the ceiling, and a marker at offset 1. -/
theorem witness_SyncSearch :
    (4 ≤ [0x55, 0x55, 0x55, 0x55, 0x55].length ∧ (∀ j, ¬ MarkerAt [0x55, 0x55, 0x55, 0x55, 0x55] j) ∧
      small.garbageCeiling < [0x55, 0x55, 0x55, 0x55, 0x55].length) ∧
    ((∀ j, ¬ MarkerAt [0x55, 0x55, 0x55, 0x55] j) ∧ [0x55, 0x55, 0x55, 0x55].length ≤ small.garbageCeiling) ∧
    (MarkerAt [0x55, 0xEB, 0xCF, 0x79, 0x00] 1 ∧ ∀ j < 1, ¬ MarkerAt [0x55, 0xEB, 0xCF, 0x79, 0x00] j) :=
  ⟨⟨by decide, find_syncMarker_eq_none.1 (by decide), by decide⟩, ⟨find_syncMarker_eq_none.1 (by decide), by decide⟩,
    by decide, by decide⟩

theorem witness_validFrame_v1 : ValidFrame Config.default v1 := by decide +kernel

theorem witness_validFrame_v46 : ValidFrame small v46 := by decide +kernel

theorem witness_IncompleteHeaderWaits : MarkerAt (v1.take 19) 0 ∧ (v1.take 19).length < 20 := by decide

/-- A shorter window that happens to match: V46 inside 21 bytes, its length changed from the whole frame's. -/
theorem witness_shorterWindowMatches :
    let view := v46 ++ [0x00]
    small.msgLenMin ≤ (le32 view 12).toNat ∧ (le32 view 12).toNat < view.length ∧
      crc32 (slice view 8 (le32 view 12).toNat) = le32 view 4 := by decide +kernel

/-- V1's first 20 bytes with the length given. -/
def withLen (a b c : Byte) : Bytes := v1.take 12 ++ [a, b, c, 0x00] ++ slice v1 16 20

/-- V37 (19), V38 (400001), V39 (400000); the lower end of the range, complete: V46 (20). -/
theorem witness_InsaneLengthDiscardsOne :
    (MarkerAt (withLen 0x13 0 0) 0 ∧ 20 ≤ (withLen 0x13 0 0).length ∧ (le32 (withLen 0x13 0 0) 12).toNat = 19) ∧
    (MarkerAt (withLen 0x81 0x1A 0x06) 0 ∧ Config.default.msgLenMax < (le32 (withLen 0x81 0x1A 0x06) 12).toNat) ∧
    (MarkerAt (withLen 0x80 0x1A 0x06) 0 ∧ (le32 (withLen 0x80 0x1A 0x06) 12).toNat = Config.default.msgLenMax ∧
      (withLen 0x80 0x1A 0x06).length < (le32 (withLen 0x80 0x1A 0x06) 12).toNat) ∧
    (MarkerAt v46 0 ∧ (le32 v46 12).toNat = small.msgLenMin ∧ small.msgLenMin = 20 ∧ v46.length = 20 ∧
      crc32 (slice v46 8 (le32 v46 12).toNat) = le32 v46 4) := by decide +kernel

/-- V34 (38 bytes of V1) and V35. -/
theorem witness_IncompleteFrameWaits :
    (MarkerAt (v1.take 38) 0 ∧ 20 ≤ (v1.take 38).length ∧ (v1.take 38).length < (le32 (v1.take 38) 12).toNat) ∧
    (MarkerAt v1 0 ∧ 20 ≤ v1.length ∧ Config.default.msgLenMin ≤ (le32 v1 12).toNat ∧ (le32 v1 12).toNat ≤ Config.default.msgLenMax ∧
      (le32 v1 12).toNat ≤ v1.length) := by decide

/-- V40: a complete 20-byte frame whose CRC32 does not match. -/
theorem witness_BadChecksumDiscardsOne :
    let view := withLen 0x14 0 0
    MarkerAt view 0 ∧ 20 ≤ view.length ∧ Config.default.msgLenMin ≤ (le32 view 12).toNat ∧ (le32 view 12).toNat ≤ Config.default.msgLenMax ∧
      (le32 view 12).toNat ≤ view.length ∧ crc32 (slice view 8 (le32 view 12).toNat) ≠ le32 view 4 := by decide +kernel

/-- V47's `head_crc16`; V1's `head_len` is 20. -/
theorem witness_HeadCrc16NotValidated : ValidFrame Config.default v1 ∧ 10 ≤ (byteAt v1 10).toNat := by decide +kernel

/-- A full accumulator of noise, with `C = MSG_LEN_MAX = 20`. -/
theorem witness_FullAccumulatorFreesBytes :
    let s := { holding { small with capacity := 20, msgLenMax := 20 } (List.replicate 20 0x55) with
      consumerQueue := [tryExtractCommand], events := [consumerTurn, consumerTurn, consumerTurn] }
    s.config.Sized ∧ 20 ≤ s.config.msgLenMax ∧ s.size = s.config.capacity ∧ s.inFlight = .idle ∧
      s.consumerQueue = tryExtractCommand :: [] ∧ s.events = consumerTurn :: consumerTurn :: consumerTurn :: [] := by decide

theorem witness_TryExtractPhases :
    (holding small [1]).inFlight = .idle ∧ { holding small [1] with inFlight := .viewed [1] }.inFlight = .viewed [1] ∧
    pending.inFlight = .decided [9, 9, 9, 9, 9] (.discard 5 (by decide)) ∧
      (Decision.discard 5 (by decide)).count ≤ pending.size := by decide

/-- One feed before the parse, one after, filling the accumulator to `C`. -/
theorem witness_InterleavedTryExtract :
    let s := { holding small [9, 9, 9, 9, 9] with
      producerQueue := [encode (.put [1]), encode (.put [2, 3])], consumerQueue := [tryExtractCommand]
      events := [consumerTurn, producerTurn, consumerTurn, producerTurn, consumerTurn] }
    s.inFlight = .idle ∧ s.producerOn = true ∧ s.size + ([[1]] ++ [[2, 3]] : List Bytes).flatten.length ≤ s.config.capacity ∧
      s.producerQueue = ([[1]] ++ [[2, 3]] : List Bytes).map (fun b => encode (.put b)) ++ [] ∧
      s.events = consumerTurn :: List.replicate 1 producerTurn
        ++ consumerTurn :: List.replicate 1 producerTurn ++ consumerTurn :: [] := by decide

/-- P2's garbage, which ends in a part of a marker. -/
theorem witness_ResyncUnderNoise :
    ValidFrame Config.default v2 ∧ ([0xAA, 0x55, 0x00, 0xEB, 0xCF] : Bytes) ≠ [] ∧
      ∀ k < ([0xAA, 0x55, 0x00, 0xEB, 0xCF] : Bytes).length, ¬ MarkerAt ([0xAA, 0x55, 0x00, 0xEB, 0xCF] ++ v2) k := by
  decide +kernel

/-- The first and the last byte the statement covers, and the bytes next to `msg_len`. -/
theorem witness_CorruptByteDiscardsOne :
    ∀ k ∈ [4, 11, 16, 38], ValidFrame Config.default (v1.take k ++ byteAt v1 k :: v1.drop (k + 1)) ∧
      byteAt v1 k ≠ 0x5A ∧ 4 ≤ (v1.take k).length ∧ ¬ (12 ≤ (v1.take k).length ∧ (v1.take k).length < 16) := by
  decide +kernel

/-- V43 (length 7), V31 (length 65575), V44 (length 38, the shorter window does not match). -/
theorem witness_CorruptLengthWaitsOrDiscards :
    (ValidFrame Config.default (v1.take 12 ++ 0x27 :: v1.drop 13) ∧ (le32 (v1.take 12 ++ 0x07 :: v1.drop 13) 12).toNat < 20) ∧
    (ValidFrame Config.default (v1.take 14 ++ 0x00 :: v1.drop 15) ∧
      (le32 (v1.take 14 ++ 0x01 :: v1.drop 15) 12).toNat ≤ Config.default.msgLenMax ∧
      (v1.take 14 ++ 0x01 :: v1.drop 15).length < (le32 (v1.take 14 ++ 0x01 :: v1.drop 15) 12).toNat) ∧
    (let view := v1.take 12 ++ 0x26 :: v1.drop 13
     Config.default.msgLenMin ≤ (le32 view 12).toNat ∧ (le32 view 12).toNat < view.length ∧
       crc32 (slice view 8 (le32 view 12).toNat) ≠ le32 view 4) := by decide +kernel

theorem witness_PartialDelivery :
    let chunks : List Bytes := [v46.take 3, v46.drop 3]
    let cfg := { small with capacity := 20 }
    ValidFrame cfg v46 ∧ chunks.flatten = v46 ∧ [] ∉ chunks ∧ v46.length ≤ cfg.capacity ∧
      (holding cfg []).acc = [] ∧ (holding cfg []).inFlight = .idle ∧ (holding cfg []).producerOn = true := by decide +kernel

/-- V88: a URI of 254 bytes. -/
theorem witness_EncodedFrameFields_Send :
    WithinLimits Config.default (List.replicate 254 0x61) [] ∧ Config.default.msgLenMax < 2 ^ 32 := by decide +kernel

theorem witness_EncodeThenParse : WithinLimits Config.default uri1 body1 ∧
    Config.default.msgLenMin ≤ 21 + uri1.length + body1.length ∧ 0 ∉ uri1 ∧ 0 ∉ body1 := by decide

/-- V89: a URI of 255 bytes; and a frame one byte longer than `MSG_LEN_MAX`. -/
theorem witness_FieldRangeIsRefused :
    254 < (List.replicate 255 (0x61 : Byte)).length ∧
    small.msgLenMax < 20 + (([] : Bytes).length + 1) + (List.replicate 20 (0x61 : Byte)).length := by decide +kernel

/-- The next step from reset runs the word that `withFetchWord` places, for every code of the table. -/
theorem test_withFetchWord :
    ∀ w ∈ [0x01, 0x02, 0x03, 0x04, 0x05, 0x06, 0x07, 0x08, 0x09, 0x0A, 0x0B, 0x0C],
      (match (State.reset.withFetchWord 8 w).issue with
        | .run i _ => some i
        | .done _ => none
        | .refuse _ => none) = decodeTableWord 8 w ∧ (decodeTableWord 8 w).isSome = true := by decide

end Sys2Proof.Tests
end

/-! The frame that `ENCODE` returns (spec/30_encoding.md R60 to R62): what stands from each of its offsets on, and its fields read off that. -/

namespace Sys2Proof.Machine

/-- A slice up to the end is what is left after the bytes before it. -/
theorem slice_to_length (b : Bytes) (i : Nat) : slice b i b.length = b.drop i := by
  rw [slice, List.take_of_length_le (by rw [List.length_drop])]

/-- A 16-bit field that stands at an offset reads back from that offset. -/
theorem le16_of_drop_eq {b rest : Bytes} {o : Nat} {v : U16} (h : b.drop o = putLe16 v ++ rest) : le16 b o = v := by
  rw [← le16_putLe16 v rest, ← h]
  exact le16_congr (byteAt_drop b o 0).symm (byteAt_drop b o 1).symm

/-- A 32-bit field that stands at an offset reads back from that offset. -/
theorem le32_of_drop_eq {b rest : Bytes} {o : Nat} {v : U32} (h : b.drop o = putLe32 v ++ rest) : le32 b o = v := by
  rw [← le32_putLe32 v rest, ← h]
  exact le32_congr (byteAt_drop b o 0).symm (byteAt_drop b o 1).symm (byteAt_drop b o 2).symm (byteAt_drop b o 3).symm

/-- The frame of a message, limits aside; `encodeFrame_eq_encodedFrame` ties it to the encoder. -/
def encodedFrame (dir : ElseShift) (uri body : Bytes) (sequence : Nat) : Bytes :=
  putLe32 Config.syncFlag ++ putLe32 (crc32 (msgWindow dir uri body sequence)) ++ msgWindow dir uri body sequence

/-- The limits of 44_encoder.md R141 are those the encoder checks. -/
theorem withinLimits_iff {cfg : Config} {uri body : Bytes} :
    WithinLimits cfg uri body ↔ ¬ (Config.uriMax < uri.length ∨ cfg.msgLenMax < msgLenOf uri body) := by
  simp only [WithinLimits, Config.uriMax, msgLenOf, Config.headerSize]
  omega

theorem encodeFrame_eq_encodedFrame {cfg : Config} {uri body : Bytes} (h : WithinLimits cfg uri body) (sequence : Nat) :
    encodeFrame cfg uri body sequence = .ok (encodedFrame cfg.crc16ElseShift uri body sequence) :=
  encodeFrame_ok (withinLimits_iff.1 h)

/-- Within the limits `ENCODE` answers with the frame, and does nothing else. -/
theorem answers_encode {s : State} {uri body : Bytes} (h : WithinLimits s.config uri body) (sequence : Nat) :
    Answers (.encode uri body sequence) s (.bytes (encodedFrame s.config.crc16ElseShift uri body sequence)) := by
  change execEncode uri body sequence s = _
  rw [execEncode, encodeFrame_eq_encodedFrame h]
  rfl

section
variable (dir : ElseShift) (uri body : Bytes) (sequence : Nat)

theorem encodedFrame_length : (encodedFrame dir uri body sequence).length = msgLenOf uri body := by
  simp only [encodedFrame, msgWindow, headWindow, msgLenOf, Config.headerSize, List.length_append, List.length_cons,
    List.length_nil, putLe16_length, putLe32_length]
  omega

theorem encodedFrame_take_four : (encodedFrame dir uri body sequence).take 4 = [0xEB, 0xCF, 0x79, 0x00] := rfl

theorem encodedFrame_drop_four :
    (encodedFrame dir uri body sequence).drop 4 =
      putLe32 (crc32 (msgWindow dir uri body sequence)) ++ msgWindow dir uri body sequence := rfl

theorem encodedFrame_drop_eight : (encodedFrame dir uri body sequence).drop 8 = msgWindow dir uri body sequence := rfl

theorem encodedFrame_drop_twelve :
    (encodedFrame dir uri body sequence).drop 12 = headWindow uri body sequence ++ (uri ++ 0 :: body) := by
  rw [List.append_cons uri]
  rfl

theorem encodedFrame_drop_sixteen :
    (encodedFrame dir uri body sequence).drop 16 =
      putLe16 (BitVec.ofNat 16 sequence) ++ ([Config.typeRequest, Config.needRespSet] ++ (uri ++ 0 :: body)) := by
  rw [List.append_cons uri]
  rfl

theorem encodedFrame_drop_twenty : (encodedFrame dir uri body sequence).drop 20 = uri ++ 0 :: body := by
  rw [List.append_cons uri]
  rfl

/-- `sync_flag`. -/
theorem encodedFrame_syncFlag : le32 (encodedFrame dir uri body sequence) 0 = 0x0079CFEB :=
  le32_of_drop_eq (v := Config.syncFlag) rfl

/-- `msg_crc32`, over the frame's own bytes from offset 8 on. -/
theorem encodedFrame_msgCrc32 :
    le32 (encodedFrame dir uri body sequence) 4 =
      crc32 (slice (encodedFrame dir uri body sequence) 8 (encodedFrame dir uri body sequence).length) := by
  rw [slice_to_length, encodedFrame_drop_eight]
  exact le32_of_drop_eq (encodedFrame_drop_four dir uri body sequence)

/-- `head_crc16`, over the frame's own bytes `[12, 20)`. -/
theorem encodedFrame_headCrc16 :
    le16 (encodedFrame dir uri body sequence) 8 = crc16 dir (slice (encodedFrame dir uri body sequence) 12 20) := by
  have hw : slice (encodedFrame dir uri body sequence) 12 20 = headWindow uri body sequence := by
    rw [slice, encodedFrame_drop_twelve]
    rfl
  rw [hw]
  exact le16_of_drop_eq (encodedFrame_drop_eight dir uri body sequence)

/-- `serial`, the low 16 bits of the sequence number. -/
theorem encodedFrame_serial : le16 (encodedFrame dir uri body sequence) 16 = BitVec.ofNat 16 sequence :=
  le16_of_drop_eq (encodedFrame_drop_sixteen dir uri body sequence)

/-- `msg_len`, which is exact as long as it fits a u32. -/
theorem encodedFrame_msgLen (h : msgLenOf uri body < 2 ^ 32) :
    (le32 (encodedFrame dir uri body sequence) 12).toNat = msgLenOf uri body := by
  have hv : le32 (encodedFrame dir uri body sequence) 12 = BitVec.ofNat 32 (msgLenOf uri body) := by
    exact le32_of_drop_eq (encodedFrame_drop_twelve dir uri body sequence)
  rw [hv, BitVec.toNat_ofNat, Nat.mod_eq_of_lt h]

/-- `head_len`. -/
theorem encodedFrame_headLen : byteAt (encodedFrame dir uri body sequence) 10 = 20 := rfl

/-- `uri_len`, which is exact as long as the URI is within its limit. -/
theorem encodedFrame_uriLen (h : uri.length ≤ 254) :
    (byteAt (encodedFrame dir uri body sequence) 11).toNat = uri.length + 1 := by
  change (BitVec.ofNat 8 (uri.length + 1)).toNat = uri.length + 1
  rw [BitVec.toNat_ofNat, Nat.mod_eq_of_lt (by omega)]

/-- `type`. -/
theorem encodedFrame_type : byteAt (encodedFrame dir uri body sequence) 18 = 0 := rfl

/-- `need_resp`. -/
theorem encodedFrame_needResp : byteAt (encodedFrame dir uri body sequence) 19 = 1 := rfl

theorem encodedFrame_uri : slice (encodedFrame dir uri body sequence) 20 (20 + uri.length) = uri := by
  rw [slice, encodedFrame_drop_twenty, Nat.add_sub_cancel_left, List.take_left]

/-- The URI's terminator. -/
theorem encodedFrame_terminator : byteAt (encodedFrame dir uri body sequence) (20 + uri.length) = 0 := by
  rw [← byteAt_drop, encodedFrame_drop_twenty, byteAt_append_right _ (Nat.le_refl _), Nat.sub_self, byteAt_cons_zero]

theorem encodedFrame_body :
    slice (encodedFrame dir uri body sequence) (21 + uri.length) (encodedFrame dir uri body sequence).length = body := by
  rw [slice_to_length, show 21 + uri.length = 20 + (uri.length + 1) by omega, ← List.drop_drop, encodedFrame_drop_twenty,
    ← List.drop_drop, List.drop_left, List.drop_succ_cons, List.drop_zero]

end

/-- Settles O49: within the limits `ENCODE` answers `encodedFrame`, whose fields are read off the part of it that stands at each offset. -/
theorem encodedFrameFields : Obligations.EncodedFrameFields := by
  intro s uri body sequence hlim hmax
  have hlen := encodedFrame_length s.config.crc16ElseShift uri body sequence
  obtain ⟨huri, htotal⟩ := hlim
  have hfits : msgLenOf uri body < 2 ^ 32 := by
    simp only [msgLenOf, Config.headerSize]
    omega
  exact ⟨encodedFrame s.config.crc16ElseShift uri body sequence, answers_encode ⟨huri, htotal⟩ sequence, hlen,
    (slice_zero _ _).trans (encodedFrame_take_four _ _ _ _), encodedFrame_syncFlag _ _ _ _, encodedFrame_msgCrc32 _ _ _ _,
    encodedFrame_headCrc16 _ _ _ _, congrArg BitVec.toNat (encodedFrame_headLen _ _ _ _), encodedFrame_uriLen _ _ _ _ huri,
    (encodedFrame_msgLen _ _ _ _ hfits).trans hlen.symm,
    (congrArg BitVec.toNat (encodedFrame_serial _ _ _ _)).trans (BitVec.toNat_ofNat _ _), encodedFrame_type _ _ _ _,
    encodedFrame_needResp _ _ _ _, encodedFrame_uri _ _ _ _, encodedFrame_terminator _ _ _ _, encodedFrame_body _ _ _ _⟩

end Sys2Proof.Machine

/-! The text that `B64ENC` returns and the lengths that `B64DEC` accepts (spec/41_base64.md R100, R103). -/

namespace Sys2Proof.Machine

/-- The pad counts of R100 as the table the rule gives. -/
theorem padTable_getD (n : Nat) : [0, 2, 1].getD (n % 3) 0 = padCount n := by
  have h : n % 3 = 0 ∨ n % 3 = 1 ∨ n % 3 = 2 := by omega
  rcases h with h | h | h <;> simp [padCount, h]

/-- The groups hold all the characters that the pad replaces: where there is a pad there is a group. -/
theorem padCount_le_encGroups_length (data : Bytes) : padCount data.length ≤ (encGroups data).length := by
  have hpad := padCount_le data.length
  rw [encGroups_length]
  obtain h | h := Nat.eq_zero_or_pos data.length
  · simp [h, padCount]
  · omega

/-- Replacing characters by the pad keeps the length of the groups. -/
theorem b64Encode_length (data : Bytes) : (b64Encode data).length = 4 * ((data.length + 2) / 3) := by
  have hpad := padCount_le_encGroups_length data
  rw [← encGroups_length]
  simp only [b64Encode, List.length_append, List.length_take, List.length_replicate]
  omega

/-- The text ends in its pad. -/
theorem b64Encode_drop_pad (data : Bytes) :
    (b64Encode data).drop ((b64Encode data).length - padCount data.length) =
      List.replicate (padCount data.length) padChar := by
  have hlen : (b64Encode data).length = (encGroups data).length := by rw [b64Encode_length, encGroups_length]
  rw [hlen, b64Encode]
  exact List.drop_left' (by rw [List.length_take, Nat.min_eq_left (Nat.sub_le _ _)])

/-- `B64ENC` answers its text, and does nothing else. -/
theorem answers_b64enc (data : Bytes) (s : State) : Answers (.b64enc data) s (.bytes (b64Encode data)) := rfl

/-- Settles O28: `B64ENC` answers `b64Encode data`, which is as long as its groups and ends in its pad. -/
theorem base64TextLengthAndPad : Obligations.Base64TextLengthAndPad := by
  intro s data
  rw [padTable_getD]
  exact ⟨b64Encode data, answers_b64enc data s, b64Encode_length data, b64Encode_drop_pad data⟩

/-- Settles O30: the two cases of `execB64dec_cases` are the two of the length. -/
theorem base64RefusesOnlyBadLength : Obligations.Base64RefusesOnlyBadLength := by
  intro s text
  obtain ⟨hlen, hexec⟩ | ⟨hlen, hexec⟩ := execB64dec_cases text s
  · exact ⟨fun _ => hexec, fun h => absurd h hlen⟩
  · exact ⟨fun h => absurd hlen h, fun _ => ⟨_, hexec⟩⟩

end Sys2Proof.Machine

/-! What `RESET` does (spec/42_accumulator.md R115). -/

namespace Sys2Proof.Machine

/-- `RESET` clears the block and answers `Ok`, in every state. -/
theorem exec_reset (s : State) : exec .reset s = .next (s.clearBlock.deliver .ok) := rfl

/-- Settles O23: clearing the block writes `acc` and `inFlight` alone, and handing over `Ok` writes `delivered` alone. -/
theorem resetEmptiesBuffer : Obligations.ResetEmptiesBuffer := by
  intro s
  have hempty : (s.clearBlock.deliver .ok).size = 0 := by simp
  have hframe : s.clearBlock.deliver .ok = { s with
      acc := []
      inFlight := (s.clearBlock.deliver .ok).inFlight
      delivered := s.delivered ++ [{ agent := s.active, result := .ok }] } := rfl
  exact ⟨s.clearBlock.deliver .ok, exec_reset s, hempty, hframe⟩

end Sys2Proof.Machine

/-! What `PARSE` answers at each of checks 1 and 3 to 6 (spec/43_framer.md R121, R123 to R126). -/

namespace Sys2Proof.Machine

/-- `PARSE` answers the decision of `parse`, and does nothing else. -/
theorem answers_parse {s : State} {view : Bytes} {d : Decision} (h : parse s.config view = d) :
    Answers (.parse view) s (.decision d) := h ▸ rfl

theorem parse_of_length_lt_four (cfg : Config) {view : Bytes} (h : view.length < 4) : parse cfg view = .needMoreData :=
  if_pos h

/-- The marker does not overlap itself: one byte after a marker none begins. -/
theorem not_markerAt_drop_one {view : Bytes} (h : MarkerAt view 0) : ¬ MarkerAt (view.drop 1) 0 := by
  intro hnext
  obtain ⟨-, hsecond, -⟩ := (markerAt_zero_iff h.lt).1 h
  obtain ⟨hfirst, -⟩ := (markerAt_zero_iff hnext.lt).1 hnext
  rw [byteAt_drop, hsecond] at hfirst
  exact absurd hfirst (by decide)

section
variable {cfg : Config} {view : Bytes}

/-- Check 3. -/
theorem parse_of_incomplete_header (hm : MarkerAt view 0) (hl : view.length < 20) : parse cfg view = .needMoreData := by
  rw [parse_of_markerAt_zero cfg hm]
  obtain ⟨-, he⟩ | ⟨hl', -⟩ | ⟨hl', -⟩ := parseAtMarker_cases cfg view
  · exact he
  · omega
  · omega

/-- Check 4. -/
theorem parse_of_insane_length (hm : MarkerAt view 0) (hl : 20 ≤ view.length)
    (hlen : (le32 view 12).toNat < cfg.msgLenMin ∨ cfg.msgLenMax < (le32 view 12).toNat) :
    parse cfg view = .discard 1 (Nat.le_refl 1) := by
  rw [parse_of_markerAt_zero cfg hm]
  obtain ⟨hl', -⟩ | ⟨-, -, he⟩ | ⟨-, hmin, hmax, -⟩ := parseAtMarker_cases cfg view
  · omega
  · exact he
  · omega

/-- With a declared length in the range, whether the frame is there and its checksum matches decides (checks 5 and 6). -/
theorem parse_of_sane_length (hm : MarkerAt view 0) (hl : 20 ≤ view.length)
    (hmin : cfg.msgLenMin ≤ (le32 view 12).toNat) (hmax : (le32 view 12).toNat ≤ cfg.msgLenMax) :
    (view.length < (le32 view 12).toNat → parse cfg view = .needMoreData) ∧
    ((le32 view 12).toNat ≤ view.length → crc32 (slice view 8 (le32 view 12).toNat) ≠ le32 view 4 →
      parse cfg view = .discard 1 (Nat.le_refl 1)) ∧
    ((le32 view 12).toNat ≤ view.length → crc32 (slice view 8 (le32 view 12).toNat) = le32 view 4 →
      ∃ h, parse cfg view = .packet (packetOf (view.take (le32 view 12).toNat)) (le32 view 12).toNat h) := by
  rw [parse_of_markerAt_zero cfg hm]
  obtain ⟨hl', -⟩ | ⟨-, hlen, -⟩ | ⟨-, -, -, ⟨hp, he⟩ | ⟨hp, hc, he⟩ | ⟨hp, hc, he⟩⟩ := parseAtMarker_cases cfg view
  · omega
  · omega
  · exact ⟨fun _ => he, fun h => by omega, fun h => by omega⟩
  · exact ⟨fun h => by omega, fun _ _ => he, fun _ h => absurd h hc⟩
  · exact ⟨fun h => by omega, fun _ h => absurd hc h, fun _ _ => he⟩

end

/-- Once the declared bytes are all there, checks 3 to 6 look at nothing behind them. -/
theorem parseAtMarker_append (cfg : Config) {f : Bytes} (hl : 20 ≤ f.length) (hp : (le32 f 12).toNat ≤ f.length) (more : Bytes) :
    parseAtMarker cfg (f ++ more) = parseAtMarker cfg f := by
  have hlen : (f ++ more).length = f.length + more.length := List.length_append
  have hheader : ¬ f.length < Config.headerSize := Nat.not_lt.2 hl
  have hheader' : ¬ (f ++ more).length < Config.headerSize := fun h => hheader (by omega)
  have hpresent' : ¬ (f ++ more).length < (le32 f 12).toNat := by omega
  simp only [parseAtMarker, le32_append_left more (show 12 + 3 < f.length by omega),
    le32_append_left more (show 4 + 3 < f.length by omega), slice_append_left more hp, if_neg hheader, if_neg hheader',
    if_neg (Nat.not_lt.2 hp), if_neg hpresent']

theorem parse_append (cfg : Config) {f : Bytes} (hm : MarkerAt f 0) (hl : 20 ≤ f.length) (hp : (le32 f 12).toNat ≤ f.length)
    (more : Bytes) : parse cfg (f ++ more) = parse cfg f := by
  rw [parse_of_markerAt_zero cfg ((markerAt_append_left more hm.lt).2 hm), parse_of_markerAt_zero cfg hm,
    parseAtMarker_append cfg hl hp]

/-- The bytes from a marker at offset 0 on, cut behind the marker, still begin with it. -/
theorem markerAt_take_zero {view : Bytes} (h : MarkerAt view 0) {n : Nat} (hn : 4 ≤ n) : MarkerAt (view.take n) 0 := by
  have hlen : 0 + 4 ≤ (view.take n).length := by
    rw [List.length_take]
    exact Nat.le_min.2 ⟨hn, h.lt⟩
  exact (markerAt_append_left (view.drop n) hlen).1 (by rwa [List.take_append_drop])

/-- Settles O36: a valid frame's first 19 bytes still begin with its marker, and are fewer than 20. -/
theorem incompleteHeaderWaits : Obligations.IncompleteHeaderWaits := by
  refine ⟨fun s view hm hl => answers_parse (parse_of_incomplete_header hm hl), fun s f hf => ?_⟩
  obtain ⟨hm, -⟩ := hf
  have hshort : (f.take 19).length < 20 := Nat.lt_succ_of_le (List.length_take_le 19 f)
  exact answers_parse (parse_of_incomplete_header (markerAt_take_zero hm (by decide)) hshort)

/-- Settles O37: below 20 is below `MSG_LEN_MIN`, so check 4 decides outside the range, and checks 5 and 6 inside it. -/
theorem insaneLengthDiscardsOne : Obligations.InsaneLengthDiscardsOne := by
  intro s view hm hl
  have hfits : 20 ≤ s.config.msgLenMin := s.config.headerFits
  refine ⟨fun hlen => ⟨?_, not_markerAt_drop_one hm⟩, fun hmin hmax => ?_⟩
  · exact ⟨Nat.le_refl 1, answers_parse (parse_of_insane_length hm hl (by omega))⟩
  · obtain ⟨hwaits, -, hdelivers⟩ := parse_of_sane_length hm hl hmin hmax
    refine ⟨fun h => answers_parse (hwaits h), fun hp hc => ?_⟩
    obtain ⟨h, he⟩ := hdelivers hp hc
    exact ⟨_, h, answers_parse he⟩

/-- Settles O38: the view is its first `msg_len` bytes and more behind them, so its decision is that of the first `msg_len` bytes. -/
theorem incompleteFrameWaits : Obligations.IncompleteFrameWaits := by
  intro s view hm hl hmin hmax
  obtain ⟨hwaits, -⟩ := parse_of_sane_length hm hl hmin hmax
  refine ⟨fun h => answers_parse (hwaits h), fun hp => ?_⟩
  have hfits : 20 ≤ (le32 view 12).toNat := Nat.le_trans s.config.headerFits hmin
  generalize hn : (le32 view 12).toNat = n at hp hfits
  have hlen : (view.take n).length = n := List.length_take_of_le hp
  have hdeclared : (le32 (view.take n) 12).toNat = n := by rw [le32_take (by omega), hn]
  have hframe (more : Bytes) : parse s.config (view.take n ++ more) = parse s.config (view.take n) :=
    parse_append s.config (markerAt_take_zero hm (by omega)) (by omega) (by omega) more
  have hview : parse s.config view = parse s.config (view.take n) := by
    rw [← hframe (view.drop n), List.take_append_drop]
  exact ⟨_, answers_parse hview, fun more => answers_parse (hframe more)⟩

/-- Settles O39: check 6; the window begins at offset 8 of at least 20 bytes. -/
theorem badChecksumDiscardsOne : Obligations.BadChecksumDiscardsOne := by
  intro s view hm hl hmin hmax hp hc
  obtain ⟨-, hdiscards, -⟩ := parse_of_sane_length hm hl hmin hmax
  refine ⟨⟨Nat.le_refl 1, answers_parse (hdiscards hp hc)⟩, ?_⟩
  have hfits : 20 ≤ (le32 view 12).toNat := Nat.le_trans s.config.headerFits hmin
  rw [slice_length]
  omega

/-- Settles O34, by check 1. -/
theorem shortViewWaits : Obligations.ShortViewWaits :=
  fun s _ h => answers_parse (parse_of_length_lt_four s.config h)

end Sys2Proof.Machine

/-! What stands in the text of `B64ENC` and in the bytes of `B64DEC`, and that the one undoes the other (spec/41_base64.md R101, R104, R107). -/

namespace Sys2Proof.Machine

/-- Three bytes joined, as one number. -/
theorem joinBytes_toNat (b0 b1 b2 : Byte) :
    (b0 ++ b1 ++ b2 : U24).toNat = b0.toNat * 65536 + b1.toNat * 256 + b2.toNat := by
  rw [BitVec.toNat_append, BitVec.toNat_append, ← Nat.shiftLeft_add_eq_or_of_lt b2.isLt, ← Nat.shiftLeft_add_eq_or_of_lt b1.isLt]
  simp only [Nat.shiftLeft_eq]
  omega

/-- Four sextets joined, as one number. -/
theorem joinBits_toNat (c0 c1 c2 c3 : Byte) :
    (joinBits c0 c1 c2 c3).toNat =
      (bits6 c0).toNat * 262144 + (bits6 c1).toNat * 4096 + (bits6 c2).toNat * 64 + (bits6 c3).toNat := by
  rw [joinBits, BitVec.toNat_append, BitVec.toNat_append, BitVec.toNat_append, ← Nat.shiftLeft_add_eq_or_of_lt (bits6 c3).isLt,
    ← Nat.shiftLeft_add_eq_or_of_lt (bits6 c2).isLt, ← Nat.shiftLeft_add_eq_or_of_lt (bits6 c1).isLt]
  simp only [Nat.shiftLeft_eq]
  omega

/-- The encode table is the alphabet string. -/
theorem enc6_eq_alphabet : ∀ v : BitVec 6, enc6 v = alphabet.getD v.toNat 0 := by decide +kernel

/-- The decode table gives a character's place in the alphabet string. -/
theorem bits6_toNat : ∀ c : Byte, (bits6 c).toNat = charValue c := by decide +kernel

/-- The alphabet's character of the sextet of a 24-bit number that starts at bit `i`. -/
theorem enc6_extract (t : U24) (i : Nat) : enc6 (t.extractLsb' i 6) = alphabet.getD (t.toNat / 2 ^ i % 64) 0 := by
  rw [enc6_eq_alphabet, BitVec.extractLsb'_toNat, Nat.shiftRight_eq_div_pow]

/-- Character `k` of a group. -/
theorem byteAt_encGroup (b0 b1 b2 : Byte) (rest : Bytes) {k : Nat} (hk : k < 4) :
    byteAt (encGroup b0 b1 b2 ++ rest) k =
      alphabet.getD ((b0.toNat * 65536 + b1.toNat * 256 + b2.toNat) / 64 ^ (3 - k) % 64) 0 := by
  rw [← joinBytes_toNat]
  interval_cases k
  · exact enc6_extract (b0 ++ b1 ++ b2) 18
  · exact enc6_extract (b0 ++ b1 ++ b2) 12
  · exact enc6_extract (b0 ++ b1 ++ b2) 6
  · exact enc6_extract (b0 ++ b1 ++ b2) 0

/-- Byte `k` of a decoded group. -/
theorem byteAt_decGroup (c0 c1 c2 c3 : Byte) (rest : Bytes) {k : Nat} (hk : k < 3) :
    (byteAt (decGroup c0 c1 c2 c3 ++ rest) k).toNat =
      (charValue c0 * 262144 + charValue c1 * 4096 + charValue c2 * 64 + charValue c3) / 256 ^ (2 - k) % 256 := by
  have hbyte (i : Nat) : ((joinBits c0 c1 c2 c3).extractLsb' i 8).toNat = (joinBits c0 c1 c2 c3).toNat / 2 ^ i % 256 := by
    rw [BitVec.extractLsb'_toNat, Nat.shiftRight_eq_div_pow]
  simp only [← bits6_toNat, ← joinBits_toNat]
  interval_cases k
  · exact hbyte 16
  · exact hbyte 8
  · exact hbyte 0

/-- The groups behind the first are those of the bytes behind the first three. -/
theorem encGroupNat_cons (a b c : Byte) (rest : Bytes) (g : Nat) : encGroupNat (a :: b :: c :: rest) (g + 1) = encGroupNat rest g :=
  rfl

theorem decGroupNat_cons (c0 c1 c2 c3 : Byte) (rest : Bytes) (g : Nat) :
    decGroupNat (c0 :: c1 :: c2 :: c3 :: rest) (g + 1) = decGroupNat rest g :=
  rfl

/-- Every character of the groups, from the 24-bit group it stands in (R101). -/
theorem byteAt_encGroups (data : Bytes) {k : Nat} (hk : k < (encGroups data).length) :
    byteAt (encGroups data) k = alphabet.getD (encGroupNat data (k / 4) / 64 ^ (3 - k % 4) % 64) 0 := by
  induction data using bytes_induction generalizing k with
  | nil => exact absurd hk (Nat.not_lt_zero k)
  | one a =>
    have hk4 : k < 4 := hk
    rw [Nat.mod_eq_of_lt hk4, Nat.div_eq_of_lt hk4]
    exact byteAt_encGroup a 0 0 [] hk4
  | two a b =>
    have hk4 : k < 4 := hk
    rw [Nat.mod_eq_of_lt hk4, Nat.div_eq_of_lt hk4]
    exact byteAt_encGroup a b 0 [] hk4
  | more a b c rest ih =>
    rw [encGroups]
    rcases Nat.lt_or_ge k 4 with hk4 | hk4
    · rw [Nat.mod_eq_of_lt hk4, Nat.div_eq_of_lt hk4]
      exact byteAt_encGroup a b c (encGroups rest) hk4
    · obtain ⟨j, rfl⟩ := Nat.exists_eq_add_of_le' hk4
      have hj : j < (encGroups rest).length := by
        rw [encGroups, List.length_append, encGroup_length] at hk
        omega
      rw [Nat.add_mod_right, Nat.add_div_right j (by decide), encGroupNat_cons, ← ih hj]
      exact byteAt_append_right _ hk4

/-- Every byte of the decoded groups, from the 24-bit group it stands in (R104). -/
theorem byteAt_decGroups : ∀ (text : Bytes) {k : Nat}, k < (decGroups text).length →
    (byteAt (decGroups text) k).toNat = decGroupNat text (k / 3) / 256 ^ (2 - k % 3) % 256
  | [], k, hk | [_], k, hk | [_, _], k, hk | [_, _, _], k, hk => absurd hk (Nat.not_lt_zero k)
  | c0 :: c1 :: c2 :: c3 :: rest, k, hk => by
    rw [decGroups]
    rcases Nat.lt_or_ge k 3 with hk3 | hk3
    · rw [Nat.mod_eq_of_lt hk3, Nat.div_eq_of_lt hk3]
      exact byteAt_decGroup c0 c1 c2 c3 (decGroups rest) hk3
    · obtain ⟨j, rfl⟩ := Nat.exists_eq_add_of_le' hk3
      have hj : j < (decGroups rest).length := by
        rw [decGroups, List.length_append, decGroup_length] at hk
        omega
      rw [Nat.add_mod_right, Nat.add_div_right j (by decide), decGroupNat_cons, ← byteAt_decGroups rest hj]
      exact congrArg BitVec.toNat (byteAt_append_right _ hk3)

/-- Settles O29: the characters before the pad are those of the groups. -/
theorem base64CharactersOfSextets : Obligations.Base64CharactersOfSextets := by
  intro s data
  rw [padTable_getD]
  refine ⟨b64Encode data, answers_b64enc data s, fun k hk => ?_⟩
  have hpad := padCount_le_encGroups_length data
  rw [b64Encode_length, ← encGroups_length] at hk
  rw [← byteAt_encGroups data (by omega), b64Encode, byteAt_append_left _ (by rw [List.length_take]; omega), byteAt_take hk]

/-- `pad` is the length of the final run of `=`, capped at 2 (R104, R106). -/
theorem trailingPad_eq_min (text : Bytes) (h : text.length % 4 = 0) :
    trailingPad text = min 2 (text.reverse.takeWhile fun c => c = padChar).length := by
  rcases hrev : text.reverse with _ | ⟨last, _ | ⟨prev, front⟩⟩
  · rw [List.reverse_eq_nil_iff.1 hrev]
    rfl
  · rw [← List.length_reverse, hrev] at h
    simp at h
  · have htext : text = front.reverse ++ [prev, last] := by
      rw [← List.reverse_reverse text, hrev]
      simp
    have hlen : text.length = front.length + 2 := by simp [htext]
    have hlast : byteAt text (text.length - 1) = last := by
      rw [hlen, htext, byteAt_append_right _ (by simp)]
      simp
    have hprev : byteAt text (text.length - 2) = prev := by
      rw [hlen, htext, byteAt_append_right _ (by simp)]
      simp
    simp only [trailingPad, hlast, hprev, show 4 ≤ text.length by omega, true_and, List.takeWhile_cons, decide_eq_true_eq]
    by_cases hl : last = padChar
    · by_cases hp : prev = padChar <;> simp [hl, hp]
    · simp [hl]

/-- The text of a legal length decodes. -/
theorem answers_b64dec {text : Bytes} (h : text.length % 4 = 0) (s : State) :
    Answers (.b64dec text) s (.bytes ((decGroups text).take (text.length / 4 * 3 - trailingPad text))) := by
  obtain ⟨hbad, -⟩ | ⟨-, hexec⟩ := execB64dec_cases text s
  · exact absurd h hbad
  · exact hexec

/-- Settles O31: the bytes kept are those of the groups, all but the last `pad`. -/
theorem base64BytesOfGroups : Obligations.Base64BytesOfGroups := by
  intro s text h
  refine ⟨_, answers_b64dec h s, ?_, fun k hk => ?_⟩
  · rw [List.length_take, decGroups_length, trailingPad_eq_min text h]
    exact Nat.min_eq_left (by omega)
  · rw [List.length_take] at hk
    rw [byteAt_take (by omega), byteAt_decGroups text (by omega)]

/-- No character of the groups is a pad. -/
theorem padChar_notMem_encGroups (data : Bytes) : padChar ∉ encGroups data := by
  have hgroup (a b c : Byte) : padChar ∉ encGroup a b c := by
    simp [encGroup, (enc6_ne_padChar _).symm]
  induction data using bytes_induction with
  | nil => exact List.not_mem_nil
  | one a => exact hgroup a 0 0
  | two a b => exact hgroup a b 0
  | more a b c rest ih => exact fun h => (List.mem_append.1 h).elim (hgroup a b c) ih

/-- The decoder counts as many pads as the encoder has written. -/
theorem trailingPad_b64Encode (data : Bytes) : trailingPad (b64Encode data) = padCount data.length := by
  rw [trailingPad_eq_min _ (by rw [b64Encode_length]; omega), b64Encode, List.reverse_append, List.reverse_replicate,
    List.takeWhile_append_of_pos (by simp), List.length_append, List.length_replicate]
  have hnone : ((encGroups data).take ((encGroups data).length - padCount data.length)).reverse.takeWhile
      (fun c => c = padChar) = [] := by
    refine List.takeWhile_eq_nil_iff.2 fun hpos hc => padChar_notMem_encGroups data ?_
    rw [← of_decide_eq_true hc]
    exact List.mem_of_mem_take (List.mem_reverse.1 (List.get_mem _ _))
  rw [hnone]
  exact Nat.min_eq_right (padCount_le _)

/-- The sextets of a group that hold no bit of the data are zero, the last and the last but one. -/
theorem extract_zero_of_two_bytes (a b : Byte) : (a ++ b ++ (0 : Byte) : U24).extractLsb' 0 6 = 0 := by
  apply BitVec.eq_of_toNat_eq
  rw [BitVec.extractLsb'_toNat, joinBytes_toNat]
  change (a.toNat * 65536 + b.toNat * 256 + 0) % 64 = 0
  omega

theorem extract_zero_of_one_byte (a : Byte) : (a ++ (0 : Byte) ++ (0 : Byte) : U24).extractLsb' 6 6 = 0 := by
  apply BitVec.eq_of_toNat_eq
  rw [BitVec.extractLsb'_toNat, joinBytes_toNat, Nat.shiftRight_eq_div_pow]
  change (a.toNat * 65536 + 0 * 256 + 0) / 64 % 64 = 0
  omega

/-- A pad decodes as the character of six zero bits does. -/
theorem bits6_padChar_eq_enc6_zero : bits6 padChar = bits6 (enc6 0) := by
  rw [bits6_padChar, bits6_enc6]

/-- The decoder's groups give the data back, and a `0x00` for each pad. -/
theorem decGroups_b64Encode (data : Bytes) :
    decGroups (b64Encode data) = data ++ List.replicate (padCount data.length) 0 := by
  induction data using bytes_induction with
  | nil => rfl
  | one a =>
    have hdec := decGroups_encGroup a 0 0 []
    simp only [encGroup, extract_zero_of_one_byte, extract_zero_of_two_bytes, List.cons_append, decGroups, decGroup,
      ← bits6_padChar_eq_enc6_zero] at hdec
    exact hdec
  | two a b =>
    have hdec := decGroups_encGroup a b 0 []
    simp only [encGroup, extract_zero_of_two_bytes, List.cons_append, decGroups, decGroup, ← bits6_padChar_eq_enc6_zero] at hdec
    exact hdec
  | more a b c rest ih =>
    rw [b64Encode_cons, decGroups_encGroup, ih]
    simp only [List.length_cons, padCount_add_three, List.cons_append]

/-- Settles O32: the decoder's groups are the data and a `0x00` for each pad, and its pad count cuts those off. -/
theorem base64RoundTrip : Obligations.Base64RoundTrip := by
  intro s data
  have hlen : (b64Encode data).length % 4 = 0 := by rw [b64Encode_length]; omega
  have hpad := padCount_le data.length
  have hgroups := congrArg List.length (decGroups_b64Encode data)
  rw [decGroups_length, List.length_append, List.length_replicate] at hgroups
  refine ⟨b64Encode data, answers_b64enc data s, ?_⟩
  have hdec := answers_b64dec hlen s
  rwa [trailingPad_b64Encode, decGroups_b64Encode, Nat.mul_comm, hgroups, Nat.add_sub_cancel, List.take_left] at hdec

end Sys2Proof.Machine

/-! What one operation answers, in every state: the accumulator's four (spec/42_accumulator.md), the phases of `TRY_EXTRACT` (43_framer.md R130 to
R132), the stateless ones (20_memory.md R46), and when an operation faults or hands over an error (60_exceptions.md). -/

namespace Sys2Proof.Machine

/-- Settles O19: the case of `execPut_cases` that fits; a byte before or behind the old end is one of the old content or of the chunk. -/
theorem putAppendsWholeChunk : Obligations.PutAppendsWholeChunk := by
  intro s bytes hfit
  obtain ⟨-, hexec⟩ | ⟨hover, -⟩ := execPut_cases bytes s
  · refine ⟨_, hexec, rfl, List.length_append, fun a ha => List.getElem?_append_left ha, fun j _ => ?_⟩
    change (s.acc ++ bytes)[s.size + j]? = bytes[j]?
    rw [List.getElem?_append_right (Nat.le_add_right _ _), Nat.add_sub_cancel_left]
  · omega

/-- Settles O20: the other case of `execPut_cases`. -/
theorem putBeyondCapacityKeepsNothing : Obligations.PutBeyondCapacityKeepsNothing := by
  intro s bytes hover
  obtain ⟨hfit, -⟩ | ⟨-, hexec⟩ := execPut_cases bytes s
  · omega
  · exact hexec

/-- `PEEK` of a count within the occupancy answers the first bytes. -/
theorem answers_peek {s : State} {n : Nat} (h : n ≤ s.size) : Answers (.peek n) s (.bytes (s.acc.take n)) := by
  obtain ⟨-, hexec⟩ | ⟨hover, -⟩ := execPeek_cases n s
  · exact hexec
  · omega

/-- Settles O21: a state that differs in the results alone has the same bytes at the front. -/
theorem peekReadsFront : Obligations.PeekReadsFront := by
  refine fun s n => ⟨fun hn => ⟨s.acc.take n, List.length_take_of_le hn, List.take_prefix n s.acc, answers_peek hn, ?_⟩,
    fun hover => ?_⟩
  · exact answers_peek (s := { s with delivered := s.delivered ++ [⟨s.active, .bytes (s.acc.take n)⟩] }) hn
  · obtain ⟨hn, -⟩ | ⟨-, hexec⟩ := execPeek_cases n s
    · omega
    · exact hexec

/-- `CONSUME` of a count within the occupancy. -/
theorem exec_consume {s : State} {n : Nat} (h : n ≤ s.size) :
    exec (.consume n) s = .next (State.deliver { s with acc := s.acc.drop n } .ok) := by
  obtain ⟨-, hexec⟩ | ⟨hover, -⟩ := execConsume_cases n s
  · exact hexec
  · omega

/-- Settles O22, by the two cases of `execConsume_cases`. -/
theorem consumeRemovesFront : Obligations.ConsumeRemovesFront := by
  refine fun s n => ⟨fun hn => ⟨_, exec_consume hn, rfl, List.length_drop, fun a => List.getElem?_drop⟩, fun hover => ?_⟩
  obtain ⟨hn, -⟩ | ⟨-, hexec⟩ := execConsume_cases n s
  · omega
  · exact hexec

section
variable {s : State}

/-- T1 (R130). -/
theorem exec_tryExtract_of_idle (h : s.inFlight = .idle) : exec .tryExtract s = .next { s with inFlight := .viewed s.acc } := by
  simp only [exec, execTryExtract, h]

/-- T2 (R131). -/
theorem exec_tryExtract_of_viewed {view : Bytes} (h : s.inFlight = .viewed view) :
    exec .tryExtract s = .next { s with inFlight := .decided view (parse s.config view) } := by
  simp only [exec, execTryExtract, h]

/-- T3 (R132). -/
theorem exec_tryExtract_of_decided {view : Bytes} {d : Decision} (h : s.inFlight = .decided view d) (hd : d.count ≤ s.size) :
    exec .tryExtract s = .next (State.deliver { s with acc := s.acc.drop d.count, inFlight := .idle } (.decision d)) := by
  simp only [exec, execTryExtract, h, State.dropFront, if_pos hd]

end

/-- Settles O43, phase by phase. -/
theorem tryExtractPhases : Obligations.TryExtractPhases :=
  fun s => ⟨exec_tryExtract_of_idle,
    fun view h => ⟨parse s.config view, answers_parse rfl, exec_tryExtract_of_viewed h⟩,
    fun _ _ h hd => exec_tryExtract_of_decided h hd⟩

/-- Settles O50: beyond the limits both operations take the second case of `execEncode_cases`. -/
theorem fieldRangeIsRefused : Obligations.FieldRangeIsRefused := by
  intro s handle uri body sequence hlimit
  obtain ⟨f, hf, -⟩ | ⟨-, hencode, hsend⟩ := execEncode_cases handle uri body sequence s
  · have herror := encodeFrame_error_iff (cfg := s.config) (k := sequence).2 ⟨rfl, hlimit⟩
    rw [herror] at hf
    cases hf
  · exact ⟨hencode, hsend⟩

/-- Settles O52: the frame is the encoder's, the answer `nextReply`. -/
theorem sendReturnsTransportAnswer : Obligations.SendReturnsTransportAnswer := by
  intro s handle uri body sequence hlim
  refine ⟨_, s.nextReply, answers_encode hlim sequence, fun r rs h => State.nextReply_cons h, ?_⟩
  change execSend handle { uri := uri, body := body } sequence s = _
  rw [execSend, encodeFrame_eq_encodedFrame hlim, List.drop_one]
  cases hreply : s.nextReply <;> simp only [State.transportWrite, State.deliver, replyResult, hreply]

/-- The result of an operation that answers bytes or an error code. -/
def bytesOrErr : Except ErrorCode Bytes → Result
  | .ok b => .bytes b
  | .error e => .err e

theorem answers_b64dec_bytesOrErr (text : Bytes) (s : State) : Answers (.b64dec text) s (bytesOrErr (b64Decode text)) := by
  change execB64dec text s = _
  unfold execB64dec
  cases b64Decode text <;> rfl

theorem answers_encode_bytesOrErr (uri body : Bytes) (sequence : Nat) (s : State) :
    Answers (.encode uri body sequence) s (bytesOrErr (encodeFrame s.config uri body sequence)) := by
  change execEncode uri body sequence s = _
  unfold execEncode
  cases encodeFrame s.config uri body sequence <;> rfl

/-- Settles O17, one function of the parameters for each operation. -/
theorem statelessOperationsReadOnlyArguments : Obligations.StatelessOperationsReadOnlyArguments := by
  intro i hi
  cases i with
  | crc16 data => exact ⟨fun cfg => .u16 (crc16 cfg.crc16ElseShift data), fun _ => rfl⟩
  | crc32 data => exact ⟨fun _ => .u32 (crc32 data), fun _ => rfl⟩
  | b64enc data => exact ⟨fun _ => .bytes (b64Encode data), answers_b64enc data⟩
  | b64dec text => exact ⟨fun _ => bytesOrErr (b64Decode text), answers_b64dec_bytesOrErr text⟩
  | parse view => exact ⟨fun cfg => .decision (parse cfg view), fun _ => answers_parse rfl⟩
  | encode uri body sequence =>
    exact ⟨fun cfg => bytesOrErr (encodeFrame cfg uri body sequence), answers_encode_bytesOrErr uri body sequence⟩
  | put _ | peek _ | consume _ | reset | tryExtract | send _ _ _ => cases hi

/-- Every operation completes in every state, but for the three that count bytes at the front. -/
theorem exec_completes {i : Instr} (hpeek : ∀ n, i ≠ .peek n) (hconsume : ∀ n, i ≠ .consume n) (htry : i ≠ .tryExtract)
    (s : State) : ∃ t, exec i s = .next t := by
  cases hi : stateless i with
  | true =>
    obtain ⟨r, hr⟩ := statelessOperationsReadOnlyArguments i hi
    exact ⟨_, hr s⟩
  | false =>
    cases i with
    | put bytes =>
      obtain ⟨-, hexec⟩ | ⟨-, hexec⟩ := execPut_cases bytes s
      · exact ⟨_, hexec⟩
      · exact ⟨_, hexec⟩
    | peek n => exact absurd rfl (hpeek n)
    | consume n => exact absurd rfl (hconsume n)
    | reset => exact ⟨_, exec_reset s⟩
    | tryExtract => exact absurd rfl htry
    | send handle message sequence =>
      obtain ⟨f, -, -, hexec⟩ | ⟨-, -, hexec⟩ := execEncode_cases handle message.uri message.body sequence s
      · exact ⟨_, hexec⟩
      · exact ⟨_, hexec⟩
    | crc16 _ | crc32 _ | b64enc _ | b64dec _ | parse _ | encode _ _ _ => cases hi

/-- The counts beyond the occupancy, each with its fault (60_exceptions.md R165). -/
abbrev CountsBeyond (i : Instr) (s : State) (f : Fault) : Prop :=
  (∃ n, i = .peek n ∧ s.size < n ∧ f = .peekBeyondSize) ∨
  (∃ n, i = .consume n ∧ s.size < n ∧ f = .consumeBeyondSize) ∨
  (i = .tryExtract ∧ (∃ v d, s.inFlight = .decided v d ∧ s.size < d.count) ∧ f = .consumeBeyondSize)

/-- An operation answers a next state, or the fault of the one count it is asked for beyond the occupancy. -/
theorem exec_next_or_fault (i : Instr) (s : State) :
    (∃ t, exec i s = .next t ∧ ∀ f, ¬ CountsBeyond i s f) ∨ ∃ f, exec i s = .fault f ∧ ∀ g, CountsBeyond i s g ↔ g = f := by
  have completes := exec_completes (i := i) (s := s)
  cases i with
  | peek n =>
    obtain ⟨hn, hexec⟩ | ⟨hn, hexec⟩ := execPeek_cases n s
    · exact .inl ⟨_, hexec, by simp [CountsBeyond, hn]⟩
    · exact .inr ⟨_, hexec, by simp [CountsBeyond, hn]⟩
  | consume n =>
    obtain ⟨hn, hexec⟩ | ⟨hn, hexec⟩ := execConsume_cases n s
    · exact .inl ⟨_, hexec, by simp [CountsBeyond, hn]⟩
    · exact .inr ⟨_, hexec, by simp [CountsBeyond, hn]⟩
  | tryExtract =>
    obtain ⟨hf, hexec⟩ | ⟨v, hf, hexec⟩ | ⟨v, d, hf, hd, hexec⟩ | ⟨v, d, hf, hd, hexec⟩ := execTryExtract_cases s
    · exact .inl ⟨_, hexec, by simp [CountsBeyond, hf]⟩
    · exact .inl ⟨_, hexec, by simp [CountsBeyond, hf]⟩
    · exact .inl ⟨_, hexec, by simp [CountsBeyond, hf, hd]⟩
    · exact .inr ⟨_, hexec, by simp [CountsBeyond, hf, hd]⟩
  | crc16 _ | crc32 _ | b64enc _ | b64dec _ | put _ | reset | parse _ | encode _ _ _ | send _ _ _ =>
    obtain ⟨t, hexec⟩ := completes (by simp) (by simp) (by simp)
    exact .inl ⟨t, hexec, by simp [CountsBeyond]⟩

theorem exec_eq_fault_iff {i : Instr} {s : State} {f : Fault} : exec i s = .fault f ↔ CountsBeyond i s f := by
  obtain ⟨t, hexec, hnone⟩ | ⟨g, hexec, hg⟩ := exec_next_or_fault i s
  · simp only [hexec, reduceCtorEq, hnone]
  · rw [hexec, hg, Host.Outcome.fault.injEq, eq_comm]

theorem exec_ne_refused (i : Instr) (s : State) (r : Refusal) : exec i s ≠ .refused r := by
  intro h
  obtain ⟨t, hexec, -⟩ | ⟨f, hexec, -⟩ := exec_next_or_fault i s
  · rw [hexec] at h
    cases h
  · rw [hexec] at h
    cases h

/-- Settles O14. -/
theorem faultExactlyBeyondSize : Obligations.FaultExactlyBeyondSize :=
  ⟨fun _ _ _ => exec_eq_fault_iff, exec_ne_refused⟩

/-- The results handed out tell the last one. -/
theorem deliver_delivered_eq_iff {s : State} {r r' : Result} :
    (s.deliver r).delivered = s.delivered ++ [{ agent := s.active, result := r' }] ↔ r = r' := by
  simp

/-- A transport's answer is no error but `ERR_TRANSPORT`. -/
theorem replyResult_eq_err {w : WriteReply} {e : ErrorCode} (h : replyResult w = .err e) : e = .transport := by
  cases w with
  | wrote count => cases h
  | failed => cases h; rfl

/-- An operation that answers a result and no more has changed nothing but the results. -/
theorem frame_of_answers {i : Instr} {s t : State} {r : Result} (hr : Answers i s r) (h : exec i s = .next t) :
    t = { s with delivered := t.delivered, tx := t.tx, writeReplies := t.writeReplies } ∧
      t.tx = s.tx ∧ t.writeReplies = s.writeReplies := by
  rw [hr] at h
  cases h
  exact ⟨rfl, rfl, rfl⟩

/-- Settles O16: an operation answers and does nothing else, or what it hands over is no error, or it is a `SEND` that has been handed to
the transport. -/
theorem errorChangesNoState : Obligations.ErrorChangesNoState := by
  intro i s t e h hd
  have answered {r : Result} (hr : Answers i s r) := frame_of_answers hr h
  cases hi : stateless i with
  | true =>
    obtain ⟨r, hr⟩ := statelessOperationsReadOnlyArguments i hi
    exact (answered (hr s)).imp_right fun hframe _ => hframe
  | false =>
    cases i with
    | put bytes =>
      obtain ⟨-, hexec⟩ | ⟨-, hexec⟩ := execPut_cases bytes s
      · cases hexec.symm.trans h
        cases deliver_delivered_eq_iff.1 hd
      · exact (answered hexec).imp_right fun hframe _ => hframe
    | peek n =>
      obtain ⟨-, hexec⟩ | ⟨-, hexec⟩ := execPeek_cases n s
      · exact (answered hexec).imp_right fun hframe _ => hframe
      · cases hexec.symm.trans h
    | consume n =>
      obtain ⟨-, hexec⟩ | ⟨-, hexec⟩ := execConsume_cases n s
      · cases hexec.symm.trans h
        cases deliver_delivered_eq_iff.1 hd
      · cases hexec.symm.trans h
    | reset =>
      cases (exec_reset s).symm.trans h
      cases deliver_delivered_eq_iff.1 hd
    | tryExtract =>
      obtain ⟨-, hexec⟩ | ⟨v, -, hexec⟩ | ⟨v, d, -, -, hexec⟩ | ⟨v, d, -, -, hexec⟩ := execTryExtract_cases s
      · cases hexec.symm.trans h
        simp at hd
      · cases hexec.symm.trans h
        simp at hd
      · cases hexec.symm.trans h
        cases deliver_delivered_eq_iff.1 hd
      · cases hexec.symm.trans h
    | send handle message sequence =>
      obtain ⟨f, -, -, hexec⟩ | ⟨-, -, hexec⟩ := execEncode_cases handle message.uri message.body sequence s
      · cases hexec.symm.trans h
        exact ⟨rfl, fun hne => absurd (replyResult_eq_err (deliver_delivered_eq_iff.1 hd)) hne⟩
      · exact (answered hexec).imp_right fun hframe _ => hframe
    | crc16 _ | crc32 _ | b64enc _ | b64dec _ | parse _ | encode _ _ _ => cases hi

end Sys2Proof.Machine

/-! One step, taken apart: what an event comes to when it runs no operation, which operation runs and at what state, and what the step as a whole
makes of the state. -/

namespace Sys2Proof.Machine

/-- At `s` the agent `a` issues `i`, or takes its next phase, and `i` runs at `u`; `es` are the events left. -/
structure Issues (s : State) (a : Agent) (es : List Event) (i : Instr) (u : State) : Prop where
  events : s.events = .turn a :: es
  opened : openTo a i = true
  running : a = .producer → s.producerOn = true
  request : (s.inFlight = .idle ∨ a = .producer) → ∃ c q, s.queue a = c :: q ∧ decode c = .ok i
  begun : a = .consumer → s.inFlight ≠ .idle → i = .tryExtract
  config : u.config = s.config
  acc : u.acc = s.acc
  inFlight : u.inFlight = s.inFlight
  report : u.report = if a = .consumer then s.reportAfter i else s.report
  active : u.active = a
  producerOn : u.producerOn = s.producerOn
  producerQueue : a = .consumer → u.producerQueue = s.producerQueue
  delivered : u.delivered = s.delivered

/-- What a consumer learns by an operation is read off its report, the content and what is in flight. -/
theorem State.reportAfter_congr {s t : State} (hr : t.report = s.report) (ha : t.acc = s.acc) (hf : t.inFlight = s.inFlight)
    (i : Instr) : t.reportAfter i = s.reportAfter i := by
  cases i <;> simp only [State.reportAfter, State.reportAfterPhase, hr, ha, hf]

/-- The operation that a step runs. -/
theorem issues_of_run {s u : State} {i : Instr} (h : s.issue = .run i u) : ∃ a es, Issues s a es i u := by
  obtain ⟨-, hi⟩ | ⟨es, -, hi⟩ | ⟨es, -, hi⟩ | ⟨es, -, hi⟩ | ⟨es, -, -, hi⟩ | ⟨es, he, hf, hi⟩ | ⟨a, es, he, hon, hidle, hi⟩ :=
    issue_cases s
  case inr.inr.inr.inr.inr.inr =>
    obtain ⟨-, hq⟩ | ⟨c, q, -, -, hq⟩ | ⟨c, q, j, hc, hd, ho, -, hq⟩ | ⟨c, q, j, r, -, -, -, hq⟩ :=
      State.fetch_cases { s with events := es, active := a } a
    case inr.inr.inl =>
      cases (hi.trans hq).symm.trans h
      have hc' : s.queue a = c :: q := by cases a <;> exact hc
      have hreport : (State.note (State.setQueue { s with events := es, active := a } a q) a i).report =
          if a = .consumer then s.reportAfter i else s.report := by
        cases a with
        | producer => rfl
        | consumer => exact State.reportAfter_congr rfl rfl rfl i
      exact ⟨a, es, {
        events := he
        opened := ho
        running := hon
        request := fun _ => ⟨c, q, hc', hd⟩
        begun := fun ha hf => absurd (hidle ha) hf
        config := by simp
        acc := by simp
        inFlight := by simp
        report := hreport
        active := by simp
        producerOn := by simp
        producerQueue := by rintro rfl; simp
        delivered := by simp }⟩
    all_goals cases (hi.trans hq).symm.trans h
  case inr.inr.inr.inr.inr.inl =>
    cases hi.symm.trans h
    exact ⟨.consumer, es, {
      events := he
      opened := rfl
      running := by simp
      request := fun hor => by simp [hf] at hor
      begun := fun _ _ => rfl
      config := rfl
      acc := rfl
      inFlight := rfl
      report := rfl
      active := rfl
      producerOn := rfl
      producerQueue := fun _ => rfl
      delivered := rfl }⟩
  all_goals cases hi.symm.trans h

/-- An event that runs no operation: nothing waits; the consumer stops; the producer is stopped; hardware reset; a stopped producer, or an agent
with no request; a command word that selects no operation. -/
theorem issue_done_cases {s u : State} (h : s.issue = .done u) :
    u = s ∨
    (∃ es, s.events = .cancel :: es ∧ u = { s with events := es, inFlight := .idle }) ∨
    (∃ es, s.events = .stopProducer :: es ∧ u = { s with events := es, producerOn := false }) ∨
    (∃ es, s.events = .hardwareReset :: es ∧
      u = { s with events := es, acc := [], inFlight := .idle, report := s.report.noteRemoval }) ∨
    (∃ a es, s.events = .turn a :: es ∧ u = { s with events := es, active := a }) ∨
    (∃ a es c q, s.events = .turn a :: es ∧ (a = .producer → s.producerOn = true) ∧ s.queue a = c :: q ∧
      u = State.raise (State.setQueue { s with events := es, active := a } a q) .badOp) := by
  obtain ⟨-, hi⟩ | ⟨es, he, hi⟩ | ⟨es, he, hi⟩ | ⟨es, he, hi⟩ | ⟨es, he, -, hi⟩ | ⟨es, -, -, hi⟩ | ⟨a, es, he, hon, -, hi⟩ :=
    issue_cases s
  case inr.inr.inr.inr.inr.inr =>
    obtain ⟨-, hq⟩ | ⟨c, q, hc, -, hq⟩ | ⟨c, q, j, -, -, -, -, hq⟩ | ⟨c, q, j, r, -, -, -, hq⟩ :=
      State.fetch_cases { s with events := es, active := a } a
    all_goals cases (hi.trans hq).symm.trans h
    · exact .inr (.inr (.inr (.inr (.inl ⟨a, es, he, rfl⟩))))
    · exact .inr (.inr (.inr (.inr (.inr ⟨a, es, c, q, he, hon, by cases a <;> exact hc, rfl⟩))))
  all_goals cases hi.symm.trans h
  · exact .inl rfl
  · exact .inr (.inl ⟨es, he, rfl⟩)
  · exact .inr (.inr (.inl ⟨es, he, rfl⟩))
  · exact .inr (.inr (.inr (.inl ⟨es, he, rfl⟩)))
  · exact .inr (.inr (.inr (.inr (.inl ⟨.producer, es, he, rfl⟩))))

/-- A step that answers a next state ends its event, or runs an operation to it. -/
theorem step_next_cases {s t : State} (h : step s = .next t) :
    s.issue = .done t ∨ ∃ a es i u, Issues s a es i u ∧ exec i u = .next t := by
  cases hi : s.issue with
  | run i u =>
    obtain ⟨a, es, hissues⟩ := issues_of_run hi
    exact .inr ⟨a, es, i, u, hissues, (step_of_run hi).symm.trans h⟩
  | done u =>
    cases (step_of_done hi).symm.trans h
    exact .inl rfl
  | refuse r => cases (step_of_refuse hi).symm.trans h

/-- Settles O8: neither an event nor an operation writes the parameters. -/
theorem runKeepsParameters : Obligations.RunKeepsParameters := by
  intro n s t
  refine run_induction (P := fun u => u.config = s.config) (fun u v hu hstep => ?_) n s t rfl
  obtain hdone | ⟨a, es, i, w, hissues, hexec⟩ := step_next_cases hstep
  · obtain rfl | ⟨es, -, rfl⟩ | ⟨es, -, rfl⟩ | ⟨es, -, rfl⟩ | ⟨a, es, -, rfl⟩ | ⟨a, es, c, q, -, -, -, rfl⟩ :=
      issue_done_cases hdone
    all_goals simpa using hu
  · obtain ⟨⟨hconfig, -⟩, -⟩ := exec_next hexec
    rw [hconfig, hissues.config, hu]

section
variable {s u : State} {a : Agent} {es : List Event} {i : Instr}

/-- The operations the table opens to the consumer alone are the consumer's. -/
theorem consumer_of_openTo (ho : openTo a i = true) (hc : openTo .producer i = false) : a = .consumer := by
  cases a with
  | producer => rw [hc] at ho; cases ho
  | consumer => rfl

theorem Issues.inFlight_of_fetched (h : Issues s .consumer es i u) (hi : i ≠ .tryExtract) : s.inFlight = .idle :=
  Decidable.byContradiction fun hf => hi (h.begun rfl hf)

/-- A `CONSUME` or `RESET` is issued with nothing in flight, and makes the consumer's snapshots past ones. -/
theorem Issues.of_removal (h : Issues s a es i u) (hi : (∃ n, i = .consume n) ∨ i = .reset) :
    s.inFlight = .idle ∧ u.report = s.report.noteRemoval := by
  obtain ⟨n, rfl⟩ | rfl := hi
  · cases consumer_of_openTo h.opened rfl
    exact ⟨h.inFlight_of_fetched (by simp), h.report⟩
  · cases consumer_of_openTo h.opened rfl
    exact ⟨h.inFlight_of_fetched (by simp), h.report⟩

/-- What the consumer has seen once it issues an operation is of the content as it is before that operation. -/
theorem State.reportAfter_fits (hr : s.report.fits s.acc) (i : Instr) : (s.reportAfter i).fits s.acc := by
  cases i with
  | peek n => exact Report.noteCopy_fits hr (List.take_prefix n s.acc)
  | consume n => exact Report.noteRemoval_fits hr s.acc
  | reset => exact Report.noteRemoval_fits hr s.acc
  | parse view => exact Report.noteParse_fits hr view
  | tryExtract =>
    simp only [State.reportAfter, State.reportAfterPhase]
    split
    · exact Report.noteCopy_fits hr (List.prefix_refl s.acc)
    · exact Report.noteParse_fits hr _
    · split
      · exact hr
      · exact Report.noteRemoval_fits hr s.acc
  | crc16 _ | crc32 _ | b64enc _ | b64dec _ | put _ | encode _ _ _ | send _ _ _ => exact hr

theorem Issues.report_fits (h : Issues s a es i u) (hr : s.report.fits s.acc) : u.report.fits s.acc := by
  rw [h.report]
  split
  · exact State.reportAfter_fits hr i
  · exact hr

theorem Memory.wf_drop {c : Nat} {m : Memory} (h : Memory.wf c m) (n : Nat) : Memory.wf c (m.drop n) := by
  simp only [Memory.wf, List.length_drop] at h ⊢
  omega

/-- What is in flight fits a longer content. -/
theorem InFlight.fits_append {f : InFlight} {cfg : Config} {acc : Memory} (h : f.fits cfg acc) (b : Bytes) :
    f.fits cfg (acc ++ b) := by
  cases f with
  | idle => trivial
  | viewed view => exact h.trans (List.prefix_append acc b)
  | decided view d => exact ⟨h.1.trans (List.prefix_append acc b), h.2⟩

/-- A phase that applies a decision leaves a report that fits what is left. -/
theorem State.reportAfterPhase_fits_drop {view : Bytes} {d : Decision} (hr : s.report.fits s.acc) (hf : s.inFlight = .decided view d) :
    s.reportAfterPhase.fits (s.acc.drop d.count) := by
  simp only [State.reportAfterPhase, hf]
  split
  · next hd =>
    rw [hd]
    exact hr
  · exact Report.noteRemoval_fits hr _

end

/-- An operation, issued in a state that meets the invariant, keeps it. -/
theorem blockInv_of_issues {s u t : State} {a : Agent} {es : List Event} {i : Instr} (hinv : BlockInv s) (h : Issues s a es i u)
    (hexec : exec i u = .next t) : BlockInv t := by
  obtain ⟨hwf, hfits, hrep⟩ := hinv
  have hreport := h.report_fits hrep
  obtain ⟨⟨hconfig, -, -, -, -, -, hr⟩, -, hblock⟩ := exec_next hexec
  simp only [BlockInv, hconfig, h.config, hr]
  simp only [State.size, h.config, h.acc, h.inFlight] at hblock
  obtain ⟨hacc, hf⟩ | ⟨b, rfl, hlen, hacc, hf⟩ | ⟨n, rfl, -, hacc, hf⟩ | ⟨rfl, hacc, hf⟩ | ⟨-, -, hacc, hf⟩ | ⟨v, -, hv, hacc, hf⟩ |
    ⟨v, d, rfl, hv, -, hacc, hf⟩ := hblock <;> rw [hacc, hf]
  · exact ⟨hwf, hfits, hreport⟩
  · exact ⟨by simpa using hlen, InFlight.fits_append hfits b, Report.fits_append hreport b⟩
  · obtain ⟨hidle, hremoval⟩ := h.of_removal (.inl ⟨n, rfl⟩)
    rw [hidle, hremoval]
    exact ⟨Memory.wf_drop hwf _, trivial, Report.noteRemoval_fits hrep _⟩
  · obtain ⟨-, hremoval⟩ := h.of_removal (.inr rfl)
    rw [hremoval]
    exact ⟨Nat.zero_le _, trivial, Report.noteRemoval_fits hrep _⟩
  · exact ⟨hwf, List.prefix_refl _, hreport⟩
  · rw [hv] at hfits
    exact ⟨hwf, ⟨hfits, rfl⟩, hreport⟩
  · cases consumer_of_openTo h.opened rfl
    rw [h.report]
    exact ⟨Memory.wf_drop hwf _, trivial, State.reportAfterPhase_fits_drop hrep hv⟩

/-- Settles O13: the events that run no operation leave the block or empty it, and an operation keeps the invariant. -/
theorem stepKeepsBlockInvariant : Obligations.StepKeepsBlockInvariant := by
  intro s t hinv hstep
  obtain hdone | ⟨a, es, i, u, hissues, hexec⟩ := step_next_cases hstep
  · obtain ⟨hwf, hfits, hrep⟩ := hinv
    obtain rfl | ⟨es, -, rfl⟩ | ⟨es, -, rfl⟩ | ⟨es, -, rfl⟩ | ⟨a, es, -, rfl⟩ | ⟨a, es, c, q, -, -, -, rfl⟩ :=
      issue_done_cases hdone
    · exact ⟨hwf, hfits, hrep⟩
    · exact ⟨hwf, trivial, hrep⟩
    · exact ⟨hwf, hfits, hrep⟩
    · exact ⟨Nat.zero_le _, trivial, Report.noteRemoval_fits hrep _⟩
    · exact ⟨hwf, hfits, hrep⟩
    · cases a <;> exact ⟨hwf, hfits, hrep⟩
  · exact blockInv_of_issues hinv hissues hexec

end Sys2Proof.Machine

/-! What `PARSE` makes of a valid frame, of one with a byte changed, and of a view with no marker in front (spec/43_framer.md R122, R127, R128,
R135), and the round trip of `ENCODE` and `PARSE` (44_encoder.md R143). -/

namespace Sys2Proof.Machine

/-- A valid frame is delivered, whatever stands behind it (R127). -/
theorem parse_of_validFrame {cfg : Config} {f : Bytes} (hf : ValidFrame cfg f) (more : Bytes) :
    parse cfg (f ++ more) = .packet (packetOf f) f.length hf.header_le := by
  have hheader := hf.header_le
  obtain ⟨hm, hmin, hmax, hlen, hcrc⟩ := hf
  rw [parse_append cfg hm hheader (Nat.le_of_eq hlen) more]
  obtain ⟨-, -, hdelivers⟩ := parse_of_sane_length hm hheader (by rwa [hlen]) (by rwa [hlen])
  obtain ⟨h, hparse⟩ := hdelivers (Nat.le_of_eq hlen) (by rwa [hlen, slice_to_length])
  simp only [hparse, hlen, List.take_length]

theorem parse_validFrame {cfg : Config} {f : Bytes} (hf : ValidFrame cfg f) :
    parse cfg f = .packet (packetOf f) f.length hf.header_le := by
  have hparse := parse_of_validFrame hf []
  rwa [List.append_nil] at hparse

theorem delivers_of_validFrame {s : State} {f : Bytes} (hf : ValidFrame s.config f) (more : Bytes) :
    Delivers s (f ++ more) (packetOf f) f.length :=
  ⟨hf.header_le, answers_parse (parse_of_validFrame hf more)⟩

/-- A 16-bit field as a number. -/
theorem le16_toNat (b : Bytes) (o : Nat) : (le16 b o).toNat = (byteAt b o).toNat + 256 * (byteAt b (o + 1)).toNat := by
  have hlow := (byteAt b o).isLt
  have hhigh := (byteAt b (o + 1)).isLt
  rw [le16, BitVec.toNat_or, BitVec.toNat_shiftLeft, BitVec.toNat_setWidth, BitVec.toNat_setWidth, Nat.mod_eq_of_lt (by omega),
    Nat.mod_eq_of_lt (show (byteAt b (o + 1)).toNat < 2 ^ 16 by omega), Nat.mod_eq_of_lt (by rw [Nat.shiftLeft_eq]; omega),
    Nat.or_comm, ← Nat.shiftLeft_add_eq_or_of_lt hlow, Nat.shiftLeft_eq]
  omega

/-- Settles O40: the packet is `packetOf f`, its strings those of the clamped windows. -/
theorem validFrameIsDelivered : Obligations.ValidFrameIsDelivered := by
  intro s f more hf
  refine ⟨packetOf f, delivers_of_validFrame hf more, ⟨?_, ?_⟩, rfl, le16_toNat f 16⟩
  · rw [List.drop_take]
    rfl
  · rw [← slice_to_length]
    rfl

section
variable {a b : Bytes} {k : Nat}

/-- Behind a place from which two sequences are the same, their slices are, and their bytes. -/
theorem slice_of_drop_eq (h : a.drop k = b.drop k) {i : Nat} (hi : k ≤ i) (j : Nat) : slice a i j = slice b i j := by
  obtain ⟨n, rfl⟩ := Nat.exists_eq_add_of_le hi
  rw [slice, slice, ← List.drop_drop, ← List.drop_drop, h]

theorem byteAt_of_drop_eq (h : a.drop k = b.drop k) {o : Nat} (ho : k ≤ o) : byteAt a o = byteAt b o := by
  obtain ⟨n, rfl⟩ := Nat.exists_eq_add_of_le ho
  rw [← byteAt_drop, ← byteAt_drop, h]

theorem le16_of_drop_eq_drop (h : a.drop k = b.drop k) {o : Nat} (ho : k ≤ o) : le16 a o = le16 b o :=
  le16_congr (byteAt_of_drop_eq h ho) (byteAt_of_drop_eq h (by omega))

theorem le32_of_drop_eq_drop (h : a.drop k = b.drop k) {o : Nat} (ho : k ≤ o) : le32 a o = le32 b o :=
  le32_congr (byteAt_of_drop_eq h ho) (byteAt_of_drop_eq h (by omega)) (byteAt_of_drop_eq h (by omega))
    (byteAt_of_drop_eq h (by omega))

/-- Two frames of one length that are the same from `head_len` on, which is at least 10, hold the same packet. -/
theorem packetOf_of_drop_eq (hlen : a.length = b.length) (h : a.drop 10 = b.drop 10) (hheader : 10 ≤ (byteAt b 10).toNat)
    (hb : 20 ≤ b.length) : packetOf a = packetOf b := by
  have hend : uriEnd a = uriEnd b := by
    simp only [uriEnd, byteAt_of_drop_eq h (Nat.le_refl 10), byteAt_of_drop_eq h (show 10 ≤ 11 by decide), hlen]
  have huri : uriRaw a = uriRaw b := by
    simp only [uriRaw, hend, byteAt_of_drop_eq h (Nat.le_refl 10), hlen]
    exact slice_of_drop_eq h (by omega) _
  have hbody : bodyRaw a = bodyRaw b := by
    simp only [bodyRaw, hend, hlen]
    exact slice_of_drop_eq h (by simp only [uriEnd]; omega) _
  simp only [packetOf, huri, hbody, byteAt_of_drop_eq h (show 10 ≤ 18 by decide), le16_of_drop_eq_drop h (show 10 ≤ 16 by decide)]

end

/-- `f` with `h` in the place of `head_crc16` and `msg_crc32` computed over it. -/
def withHeadCrc16 (h : U16) (f : Bytes) : Bytes :=
  f.take 4 ++ putLe32 (crc32 (putLe16 h ++ f.drop 10)) ++ putLe16 h ++ f.drop 10

section
variable {f : Bytes} (h : U16) (hf : 20 ≤ f.length)
include hf

theorem withHeadCrc16_length : (withHeadCrc16 h f).length = f.length := by
  simp only [withHeadCrc16, List.length_append, List.length_take, List.length_drop, putLe16_length, putLe32_length]
  omega

theorem withHeadCrc16_drop_four :
    (withHeadCrc16 h f).drop 4 = putLe32 (crc32 (putLe16 h ++ f.drop 10)) ++ (putLe16 h ++ f.drop 10) := by
  rw [withHeadCrc16, List.append_assoc, List.append_assoc]
  exact List.drop_left' (List.length_take_of_le (by omega))

theorem withHeadCrc16_drop_eight : (withHeadCrc16 h f).drop 8 = putLe16 h ++ f.drop 10 := by
  rw [show 8 = 4 + 4 from rfl, ← List.drop_drop, withHeadCrc16_drop_four h hf]
  rfl

theorem withHeadCrc16_drop_ten : (withHeadCrc16 h f).drop 10 = f.drop 10 := by
  rw [show 10 = 8 + 2 from rfl, ← List.drop_drop, withHeadCrc16_drop_eight h hf]
  rfl

end

/-- The frame with another `head_crc16` is as valid as the frame (R128). -/
theorem validFrame_withHeadCrc16 {cfg : Config} {f : Bytes} (hf : ValidFrame cfg f) (h : U16) : ValidFrame cfg (withHeadCrc16 h f) := by
  have hheader := hf.header_le
  obtain ⟨hm, hmin, hmax, hlen, -⟩ := hf
  have hlength := withHeadCrc16_length h hheader
  refine ⟨?_, by rwa [hlength], by rwa [hlength], ?_, ?_⟩
  · have hmarker : MarkerAt (f.take 4) 0 := markerAt_take_zero hm (Nat.le_refl 4)
    rw [withHeadCrc16, List.append_assoc, List.append_assoc]
    exact (markerAt_append_left _ hmarker.lt).2 hmarker
  · rw [le32_of_drop_eq_drop (withHeadCrc16_drop_ten h hheader) (by decide), hlen, hlength]
  · rw [withHeadCrc16_drop_eight h hheader]
    exact (le32_of_drop_eq (withHeadCrc16_drop_four h hheader)).symm

/-- Settles O41: the changed frame is valid, and the same as the other from `head_len` on. -/
theorem headCrc16NotValidated : Obligations.HeadCrc16NotValidated := by
  intro s f h hf
  have hheader := hf.header_le
  have hlength := withHeadCrc16_length h hheader
  have htail := withHeadCrc16_drop_ten h hheader
  have hold := delivers_of_validFrame hf []
  have hnew := delivers_of_validFrame (validFrame_withHeadCrc16 hf h) []
  rw [List.append_nil] at hold hnew
  rw [hlength] at hnew
  exact ⟨packetOf f, packetOf (withHeadCrc16 h f), hold, hnew, byteAt_of_drop_eq htail (by decide),
    le16_of_drop_eq_drop htail (by decide), fun hbig => packetOf_of_drop_eq hlength htail hbig hheader⟩

/-- An encoded frame is valid, for either `CRC16_ELSE_SHIFT`. -/
theorem validFrame_encodedFrame {cfg : Config} {uri body : Bytes} (hlim : WithinLimits cfg uri body) (hmax : cfg.msgLenMax < 2 ^ 32)
    (hmin : cfg.msgLenMin ≤ 21 + uri.length + body.length) (dir : ElseShift) (sequence : Nat) :
    ValidFrame cfg (encodedFrame dir uri body sequence) := by
  have hlen := encodedFrame_length dir uri body sequence
  have hcrc := encodedFrame_msgCrc32 dir uri body sequence
  have htotal : msgLenOf uri body = 21 + uri.length + body.length := by
    simp only [msgLenOf, Config.headerSize]
    omega
  rw [slice_to_length] at hcrc
  obtain ⟨-, hbound⟩ := hlim
  exact ⟨(slice_zero _ _).trans (encodedFrame_take_four dir uri body sequence), by omega, by omega,
    (encodedFrame_msgLen dir uri body sequence (by omega)).trans hlen.symm, hcrc.symm⟩

/-- The packet of an encoded frame is the message. -/
theorem packetOf_encodedFrame {uri body : Bytes} (huri : uri.length ≤ 254) (hu : 0 ∉ uri) (hb : 0 ∉ body) (dir : ElseShift)
    (sequence : Nat) :
    packetOf (encodedFrame dir uri body sequence) =
      { uri := uri, body := body, type := 0, serial := BitVec.ofNat 16 sequence } := by
  have hlen := encodedFrame_length dir uri body sequence
  have hend : uriEnd (encodedFrame dir uri body sequence) = 20 + (uri.length + 1) := by
    simp only [uriEnd, encodedFrame_headLen, encodedFrame_uriLen dir uri body sequence huri, hlen, msgLenOf, Config.headerSize]
    exact Nat.min_eq_left (Nat.le_add_right _ _)
  have hstart : min (byteAt (encodedFrame dir uri body sequence) 10).toNat (encodedFrame dir uri body sequence).length = 20 := by
    rw [encodedFrame_headLen, hlen, msgLenOf, Nat.add_assoc]
    exact Nat.min_eq_left (Nat.le_add_right 20 _)
  have huriRaw : uriRaw (encodedFrame dir uri body sequence) = uri ++ 0 :: [] := by
    rw [uriRaw, hstart, hend, slice, encodedFrame_drop_twenty, Nat.add_sub_cancel_left, List.take_length_add_append]
    rfl
  have hbodyRaw : bodyRaw (encodedFrame dir uri body sequence) = body := by
    rw [bodyRaw, hend, show 20 + (uri.length + 1) = 21 + uri.length by omega, encodedFrame_body]
  rw [packetOf, huriRaw, hbodyRaw, cstr_append_zero hu, cstr_eq_self hb, encodedFrame_type, encodedFrame_serial]

/-- Settles O51: the frame is valid under the parameters of either side, and its packet is the message. -/
theorem encodeThenParse : Obligations.EncodeThenParse := by
  intro s uri body sequence dir hlim hmax hmin hu hb
  have hvalid : ValidFrame { s.config with crc16ElseShift := dir } (encodedFrame s.config.crc16ElseShift uri body sequence) :=
    validFrame_encodedFrame hlim hmax hmin s.config.crc16ElseShift sequence
  have hlen : (encodedFrame s.config.crc16ElseShift uri body sequence).length = 21 + uri.length + body.length := by
    rw [encodedFrame_length, msgLenOf, Config.headerSize]
    omega
  refine ⟨_, answers_encode hlim sequence, ?_⟩
  have hdelivers := delivers_of_validFrame (s := { s with config := { s.config with crc16ElseShift := dir } }) hvalid []
  rwa [List.append_nil, packetOf_encodedFrame hlim.1 hu hb, hlen] at hdelivers

/-- A packet's count is a declared length in the range. -/
theorem parse_packet_range {cfg : Config} {view : Bytes} {p : ParsedPacket} {n : Nat} {h : Config.headerSize ≤ n}
    (hparse : parse cfg view = .packet p n h) : cfg.msgLenMin ≤ n ∧ n ≤ cfg.msgLenMax := by
  by_cases hm : MarkerAt view 0
  · rw [parse_of_markerAt_zero _ hm] at hparse
    obtain ⟨-, he⟩ | ⟨-, -, he⟩ | ⟨-, hmin, hmax, ⟨-, he⟩ | ⟨-, -, he⟩ | ⟨-, -, _, he⟩⟩ := parseAtMarker_cases cfg view <;>
      cases he.symm.trans hparse
    exact ⟨hmin, hmax⟩
  · obtain ⟨he, -⟩ | ⟨⟨_, he⟩, -⟩ | ⟨k, _, he, -⟩ := parse_of_not_markerAt_zero cfg hm <;> cases he.symm.trans hparse

/-- Settles O33: no count exceeds the view, and a packet's is in the range. -/
theorem parseCountsWithinView : Obligations.ParseCountsWithinView := by
  intro s view
  have hcount := parse_count_le_length s.config view
  refine ⟨parse s.config view, answers_parse rfl, fun n h hd => ?_, fun p n h hd => ?_⟩
  · rw [hd] at hcount
    exact ⟨h, hcount⟩
  · obtain ⟨hmin, hmax⟩ := parse_packet_range hd
    rw [hd] at hcount
    exact ⟨h, hmin, hcount, hmax⟩

section
variable {cfg : Config} {view : Bytes}

/-- Check 2, no marker in the whole view: above the ceiling it goes, at most the ceiling it waits. -/
theorem parse_of_no_marker_above (hl : 4 ≤ view.length) (hnone : ∀ j, ¬ MarkerAt view j) (hceiling : cfg.garbageCeiling < view.length) :
    ∃ h, parse cfg view = .discard view.length h := by
  obtain ⟨-, hlen | ⟨-, hle⟩⟩ | ⟨hparse, -⟩ | ⟨k, _, -, hk, -⟩ := parse_of_not_markerAt_zero cfg (hnone 0)
  · omega
  · omega
  · exact hparse
  · exact absurd hk (hnone k)

theorem parse_of_no_marker_below (hnone : ∀ j, ¬ MarkerAt view j) (hceiling : view.length ≤ cfg.garbageCeiling) :
    parse cfg view = .needMoreData := by
  obtain ⟨hparse, -⟩ | ⟨-, -, -, hlt⟩ | ⟨k, _, -, hk, -⟩ := parse_of_not_markerAt_zero cfg (hnone 0)
  · exact hparse
  · omega
  · exact absurd hk (hnone k)

/-- Check 2, the first marker beyond offset 0: what stands before it goes. -/
theorem parse_of_first_marker {k : Nat} (hk : 0 < k) (hm : MarkerAt view k) (hfirst : ∀ j < k, ¬ MarkerAt view j) :
    parse cfg view = .discard k hk := by
  have hlt := hm.lt
  obtain ⟨-, hlen | ⟨hnone, -⟩⟩ | ⟨-, -, hnone, -⟩ | ⟨j, h, hparse, hj, hleast⟩ := parse_of_not_markerAt_zero cfg (hfirst 0 hk)
  · omega
  · exact absurd hm (hnone k)
  · exact absurd hm (hnone k)
  · have hjk : j = k := Nat.le_antisymm (Nat.le_of_not_lt fun hlt => hleast k hlt hm) (Nat.le_of_not_lt fun hlt => hfirst j hlt hj)
    simp only [hparse, hjk]

end

/-- Settles O35, by check 2's three outcomes. -/
theorem syncSearch : Obligations.SyncSearch := by
  refine fun s view hl => ⟨fun hnone hceiling => ?_, fun hnone hceiling => answers_parse (parse_of_no_marker_below hnone hceiling),
    fun k hk hm hfirst => ⟨hk, answers_parse (parse_of_first_marker hk hm hfirst)⟩⟩
  obtain ⟨h, hparse⟩ := parse_of_no_marker_above hl hnone hceiling
  exact ⟨h, answers_parse hparse⟩

/-- A 32-bit field tells each of its four bytes. -/
theorem byteAt_of_le32_eq {a b : Bytes} {o : Nat} (h : le32 a o = le32 b o) {k : Nat} (hk : k < 4) :
    byteAt a (o + k) = byteAt b (o + k) := by
  have hbyte (c : Bytes) : byteAt c (o + k) = (le32 c o).extractLsb' (8 * k) 8 := by
    apply BitVec.eq_of_getLsbD_eq
    intro i hi
    simp only [le32, BitVec.getLsbD_extractLsb', BitVec.getLsbD_or, BitVec.getLsbD_shiftLeft, BitVec.getLsbD_setWidth]
    interval_cases k <;> interval_cases i <;> simp
  rw [hbyte, hbyte, h]

section
variable (before after : Bytes) (x y : Byte)

theorem byteAt_middle : byteAt (before ++ x :: after) before.length = x := by
  rw [byteAt_append_right _ (Nat.le_refl _), Nat.sub_self, byteAt_cons_zero]

variable {before after x y}

/-- Changing one byte leaves the others. -/
theorem byteAt_changed {o : Nat} (ho : o ≠ before.length) : byteAt (before ++ y :: after) o = byteAt (before ++ x :: after) o := by
  rcases Nat.lt_or_gt_of_ne ho with hlt | hgt
  · rw [byteAt_append_left _ hlt, byteAt_append_left _ hlt]
  · obtain ⟨k, hk⟩ := Nat.exists_eq_add_of_lt hgt
    rw [byteAt_append_right _ hgt.le, byteAt_append_right _ hgt.le, show o - before.length = k + 1 by omega, byteAt_cons_succ,
      byteAt_cons_succ]

theorem length_changed : (before ++ y :: after).length = (before ++ x :: after).length := by
  simp only [List.length_append, List.length_cons]

/-- A 32-bit field that does not hold the changed byte stays. -/
theorem le32_changed_of_outside {o : Nat} (ho : before.length < o ∨ o + 4 ≤ before.length) :
    le32 (before ++ y :: after) o = le32 (before ++ x :: after) o :=
  le32_congr (byteAt_changed (by omega)) (byteAt_changed (by omega)) (byteAt_changed (by omega)) (byteAt_changed (by omega))

/-- One that holds it changes. -/
theorem le32_changed_of_inside {o : Nat} (hxy : x ≠ y) (ho : o ≤ before.length) (ho' : before.length < o + 4) :
    le32 (before ++ y :: after) o ≠ le32 (before ++ x :: after) o := by
  obtain ⟨k, hk⟩ := Nat.exists_eq_add_of_le ho
  intro h
  have hbyte := byteAt_of_le32_eq h (show k < 4 by omega)
  rw [← hk, byteAt_middle, byteAt_middle] at hbyte
  exact hxy hbyte.symm

/-- A change behind the marker leaves it. -/
theorem markerAt_zero_changed (hm : MarkerAt (before ++ x :: after) 0) (hb : 4 ≤ before.length) :
    MarkerAt (before ++ y :: after) 0 :=
  (markerAt_append_left _ hb).2 ((markerAt_append_left _ hb).1 hm)

/-- Where the CRC32 of the bytes from offset 8 on was the stored one, it no longer is. -/
theorem crc32_changed (hxy : x ≠ y) (hb : 4 ≤ before.length)
    (hcrc : crc32 ((before ++ x :: after).drop 8) = le32 (before ++ x :: after) 4) :
    crc32 ((before ++ y :: after).drop 8) ≠ le32 (before ++ y :: after) 4 := by
  rcases Nat.lt_or_ge before.length 8 with hstored | hcovered
  · have hdrop (z : Byte) : (before ++ z :: after).drop 8 = after.drop (7 - before.length) := by
      rw [List.drop_append, List.drop_eq_nil_of_le hstored.le, show 8 - before.length = 7 - before.length + 1 by omega,
        List.drop_succ_cons, List.nil_append]
    rw [hdrop, ← hdrop x, hcrc]
    exact (le32_changed_of_inside hxy hb (by omega)).symm
  · rw [List.drop_append_of_le_length hcovered] at hcrc ⊢
    rw [le32_changed_of_outside (.inr hcovered), ← hcrc]
    exact (crc32_ne_of_one_byte _ _ hxy).symm

end

/-- Settles O46: `msg_len` is as it was, and the stored CRC32 is not that of the window. -/
theorem corruptByteDiscardsOne : Obligations.CorruptByteDiscardsOne := by
  intro s before after more x y hf hxy hb hout
  have hheader := hf.header_le
  have hlength : (before ++ y :: after).length = (before ++ x :: after).length := length_changed
  obtain ⟨hm, hmin, hmax, hlen, hcrc⟩ := hf
  have hm' : MarkerAt (before ++ y :: after) 0 := markerAt_zero_changed hm hb
  have hlen' : (le32 (before ++ y :: after) 12).toNat = (before ++ y :: after).length := by
    rw [le32_changed_of_outside (x := x) (by omega), hlen, hlength]
  have hcrc' := crc32_changed hxy hb hcrc
  rw [← hlength] at hheader hmin hmax
  obtain ⟨-, hdiscards, -⟩ := parse_of_sane_length (cfg := s.config) hm' hheader (by rwa [hlen']) (by rwa [hlen'])
  refine ⟨Nat.le_refl 1, answers_parse ?_⟩
  rw [parse_append s.config hm' hheader (Nat.le_of_eq hlen') more]
  exact hdiscards (Nat.le_of_eq hlen') (by rwa [hlen', slice_to_length])

/-- Settles O47: a changed byte of `msg_len` changes it, and checks 4 to 6 decide on the new one. -/
theorem corruptLengthWaitsOrDiscards : Obligations.CorruptLengthWaitsOrDiscards := by
  intro s before after x y hf hxy hb hb'
  have hheader := hf.header_le
  have hlength : (before ++ y :: after).length = (before ++ x :: after).length := length_changed
  obtain ⟨hm, -, -, hlen, -⟩ := hf
  have hm' : MarkerAt (before ++ y :: after) 0 := markerAt_zero_changed hm (by omega)
  rw [← hlength] at hheader
  refine ⟨fun hsame => ?_, fun hinsane => ⟨Nat.le_refl 1, answers_parse (parse_of_insane_length hm' hheader hinsane)⟩,
    fun hmin hmax => ?_⟩
  · rw [hlength, ← hlen] at hsame
    exact le32_changed_of_inside hxy hb (by omega) (BitVec.eq_of_toNat_eq hsame)
  · obtain ⟨hwaits, hdiscards, hdelivers⟩ := parse_of_sane_length hm' hheader hmin hmax
    refine ⟨fun h => answers_parse (hwaits h), fun h hc => ⟨Nat.le_refl 1, answers_parse (hdiscards h.le hc)⟩, fun h hc => ?_⟩
    obtain ⟨h20, hparse⟩ := hdelivers h.le hc
    exact ⟨_, h20, answers_parse hparse⟩

end Sys2Proof.Machine

/-! The command words (spec/30_encoding.md R77, R78), the state at reset (10_state.md R33), the numbers of the error codes (60_exceptions.md R150),
and the checksums in integer arithmetic (40_crc.md). -/

namespace Sys2Proof.Machine

theorem decode_encode (i : Instr) : decode (encode i) = .ok i := by
  cases i <;> rfl

/-- A command word selects an operation exactly when it is one of the twelve codes. -/
theorem exists_decode_eq_ok_iff (c : Command) : (∃ i, decode c = .ok i) ↔ 1 ≤ c.op.toNat ∧ c.op.toNat ≤ 12 := by
  unfold decode
  split
  case h_13 =>
    simp only [reduceCtorEq, exists_false, false_iff]
    grind
  all_goals
    rename_i hop
    simp only [hop, Except.ok.injEq, exists_eq', Nat.reduceLeDiff, and_self]

/-- The encoder's word of a decoded operation is the word it was decoded from. -/
theorem encode_op_of_decode {c : Command} {i : Instr} (h : decode c = .ok i) : (encode i).op = c.op := by
  unfold decode at h
  split at h
  case h_13 => cases h
  all_goals
    rename_i hop
    cases h
    exact BitVec.eq_of_toNat_eq hop.symm

/-- Settles O9. -/
theorem tableWordsDecode : Obligations.TableWordsDecode := by
  unfold Obligations.TableWordsDecode
  decide

/-- Settles O10. -/
theorem decodeEncodeAgree : Obligations.DecodeEncodeAgree :=
  ⟨decode_encode, exists_decode_eq_ok_iff, fun _ _ => encode_op_of_decode⟩

/-- Settles O11: the values are those of `Config.default`. -/
theorem resetBlockIsEmpty : Obligations.ResetBlockIsEmpty := by
  have hsized : State.reset.config.Sized := by decide
  exact ⟨rfl, rfl, rfl, rfl, rfl, rfl, rfl, hsized⟩

/-- Settles O12: an empty block and an empty report fit anything. -/
theorem resetMeetsInvariant : Obligations.ResetMeetsInvariant :=
  ⟨reset_wf, trivial, fun _ hv => absurd hv List.not_mem_nil, List.Pairwise.nil⟩

/-- Settles O18. -/
theorem errorNumbers : Obligations.ErrorNumbers := rfl

/-- Repeating a round commutes with the reading as an integer, when the round does. -/
theorem toNat_repeat {w : Nat} {f : BitVec w → BitVec w} {g : Nat → Nat} (h : ∀ c, (f c).toNat = g c.toNat) (n : Nat) (c : BitVec w) :
    (Nat.repeat f n c).toNat = Nat.repeat g n c.toNat := by
  induction n with
  | zero => rfl
  | succ n ih => exact (h _).trans (congrArg g ih)

theorem crc16Byte_toNat (dir : ElseShift) (c : U16) (b : Byte) :
    (crc16Byte dir c b).toNat = Nat.repeat (crc16RoundNat dir) 8 (c.toNat ^^^ (b.toNat * 256)) := by
  have hb := b.isLt
  have hshift : (b.setWidth 16 <<< 8).toNat = b.toNat * 256 := by
    rw [BitVec.toNat_shiftLeft, BitVec.toNat_setWidth, Nat.shiftLeft_eq, Nat.mod_eq_of_lt (show b.toNat < 2 ^ 16 by omega)]
    exact Nat.mod_eq_of_lt (by omega)
  rw [crc16Byte, toNat_repeat (crc16Round_toNat dir), BitVec.toNat_xor, hshift]

theorem crc32Byte_toNat (c : U32) (b : Byte) :
    (crc32Byte c b).toNat = Nat.repeat crc32RoundNat 8 (c.toNat ^^^ b.toNat) := by
  have hb := b.isLt
  rw [crc32Byte, toNat_repeat crc32Round_toNat, BitVec.toNat_xor, BitVec.toNat_setWidth,
    Nat.mod_eq_of_lt (show b.toNat < 2 ^ 32 by omega)]

/-- Taking in the bytes commutes with the reading as an integer. -/
theorem toNat_foldl {w : Nat} {f : BitVec w → Byte → BitVec w} {g : Nat → Byte → Nat} (h : ∀ c b, (f c b).toNat = g c.toNat b)
    (data : Bytes) (c : BitVec w) : (data.foldl f c).toNat = data.foldl g c.toNat := by
  induction data generalizing c with
  | nil => rfl
  | cons b data ih => rw [List.foldl_cons, List.foldl_cons, ih, h]

/-- Settles O26, round by round and byte by byte. -/
theorem crc16InIntegers : Obligations.Crc16InIntegers :=
  fun s data => ⟨crc16 s.config.crc16ElseShift data, rfl, toNat_foldl
    (g := fun c b => Nat.repeat (crc16RoundNat s.config.crc16ElseShift) 8 (c ^^^ (b.toNat * 256))) (crc16Byte_toNat _) data
    Config.crc16Init⟩

/-- Settles O27, round by round and byte by byte, and the complement at the end. -/
theorem crc32InIntegers : Obligations.Crc32InIntegers := by
  intro s data
  refine ⟨crc32 data, rfl, ?_⟩
  rw [crc32, BitVec.toNat_xor, toNat_foldl (g := fun c b => Nat.repeat crc32RoundNat 8 (c ^^^ b.toNat)) crc32Byte_toNat]
  rfl

end Sys2Proof.Machine

/-! The step by its event and its request: what it runs, what it refuses, when it faults; and what each agent's step leaves of the content and of the
consumer's report (spec/20_memory.md R50, R51, 60_exceptions.md R160 to R165, 70_reset_and_hazards.md R170 to R174). -/

namespace Sys2Proof.Machine

section
variable {s : State} {a : Agent} {c : Command} {q : List Command} {rest : List Event} {i : Instr}

/-- An agent that acts fetches its next request: a producer that is not stopped, a consumer with nothing in flight. -/
theorem issue_of_turn (he : s.events = .turn a :: rest) (hon : a = .producer → s.producerOn = true)
    (hidle : a = .consumer → s.inFlight = .idle) : s.issue = State.fetch { s with events := rest, active := a } a := by
  rw [State.issue_turn he]
  cases a with
  | producer => rw [State.takeTurn_producer, if_pos (hon rfl)]
  | consumer => rw [State.takeTurn_consumer, if_pos (hidle rfl)]

/-- What becomes of a request that decodes: it runs, or it is refused. -/
theorem fetch_of_no_objection (hq : s.queue a = c :: q) (hd : decode c = .ok i) (hnone : s.objection a i = none) :
    s.fetch a = .run i ((s.setQueue a q).note a i) := by
  simp only [State.fetch, hq, hd, hnone]

theorem fetch_of_objection (hq : s.queue a = c :: q) (hd : decode c = .ok i) {r : Refusal} (hsome : s.objection a i = some r) :
    s.fetch a = .refuse r := by
  simp only [State.fetch, hq, hd, hsome]

/-- Neither the requests of an agent nor what is objected to one depend on the events or on who is noted as acting. -/
theorem queue_of_turn (hq : s.queue a = c :: q) : State.queue { s with events := rest, active := a } a = c :: q := by
  cases a <;> exact hq

theorem objection_of_turn : State.objection { s with events := rest, active := a } a i = s.objection a i := by
  cases i <;> rfl

/-- A request with nothing against it runs. -/
theorem step_of_request (he : s.events = .turn a :: rest) (hon : a = .producer → s.producerOn = true)
    (hidle : a = .consumer → s.inFlight = .idle) (hq : s.queue a = c :: q) (hd : decode c = .ok i)
    (hnone : s.objection a i = none) :
    step s = exec i (State.note (State.setQueue { s with events := rest, active := a } a q) a i) := by
  refine step_of_run ?_
  rw [issue_of_turn he hon hidle, fetch_of_no_objection (queue_of_turn hq) hd (objection_of_turn.trans hnone)]

/-- A request with something against it is refused. -/
theorem step_of_objection (he : s.events = .turn a :: rest) (hon : a = .producer → s.producerOn = true)
    (hidle : a = .consumer → s.inFlight = .idle) (hq : s.queue a = c :: q) (hd : decode c = .ok i) {r : Refusal}
    (hsome : s.objection a i = some r) : step s = .refused r := by
  refine step_of_refuse ?_
  rw [issue_of_turn he hon hidle, fetch_of_objection (queue_of_turn hq) hd (objection_of_turn.trans hsome)]

end

/-- Settles O1. -/
theorem stepRunsDecodedOperation : Obligations.StepRunsDecodedOperation :=
  fun _ _ _ _ _ _ he hq hd hopen hreported hon hidle =>
    step_of_request he hon hidle hq hd (State.objection_eq_none hopen hreported)

/-- Settles O2. -/
theorem stepContinuesTryExtract : Obligations.StepContinuesTryExtract := by
  intro s rest he hf
  refine step_of_run ?_
  rw [State.issue_turn he, State.takeTurn_consumer, if_neg hf]

/-- Settles O3: such a word selects no operation. -/
theorem unknownCodeReturnsBadOp : Obligations.UnknownCodeReturnsBadOp := by
  intro s a c q rest he hq hop hon hidle
  have hout : ¬ ∃ i, decode c = .ok i := by
    rw [exists_decode_eq_ok_iff]
    rcases hop with h | h
    · simp [h]
    · omega
  cases hd : decode c with
  | ok i => exact absurd ⟨i, hd⟩ hout
  | error e =>
    refine step_of_done ?_
    rw [issue_of_turn he hon hidle, State.fetch, queue_of_turn hq]
    cases a <;> simp only [hd] <;> rfl

/-- Settles O5. -/
theorem cancellationLeavesBytes : Obligations.CancellationLeavesBytes :=
  fun _ _ he => step_of_done (State.issue_cancel he)

/-- Settles O6. -/
theorem hardwareResetEqualsReset : Obligations.HardwareResetEqualsReset :=
  ⟨fun _ _ he => step_of_done (State.issue_hardwareReset he), fun s => ⟨_, exec_reset s, rfl⟩, rfl⟩

/-- The two objections, as the statements have them. -/
theorem objection_notOpen {s : State} {a : Agent} {i : Instr} (h : OutsideTable a i) :
    s.objection a i = some (.notOpenToAgent a i) := by
  rw [State.objection, openTo_eq_false_iff.2 h]
  rfl

theorem objection_notReported {s : State} {n : Nat} {i : Instr} (h : NotReported s n i) :
    s.objection .consumer i = some (.consumeNotReported n) := by
  obtain rfl := h.1
  rw [State.objection, State.offCount_eq_some.2 h]
  rfl

/-- A step refuses only by an objection to the request whose turn it is. -/
theorem objection_of_step_refused {s : State} {r : Refusal} (h : step s = .refused r) :
    ∃ a c q rest i, s.events = .turn a :: rest ∧ s.queue a = c :: q ∧ decode c = .ok i ∧ s.objection a i = some r := by
  cases hi : s.issue with
  | run i u => exact absurd ((step_of_run hi).symm.trans h) (exec_ne_refused i u r)
  | done u => cases (step_of_done hi).symm.trans h
  | refuse r' =>
    cases (step_of_refuse hi).symm.trans h
    obtain ⟨-, he⟩ | ⟨es, -, he⟩ | ⟨es, -, he⟩ | ⟨es, -, he⟩ | ⟨es, -, -, he⟩ | ⟨es, -, -, he⟩ | ⟨a, es, hevents, -, -, he⟩ :=
      issue_cases s
    case inr.inr.inr.inr.inr.inr =>
      obtain ⟨-, hq⟩ | ⟨c, q, -, -, hq⟩ | ⟨c, q, i, -, -, -, -, hq⟩ | ⟨c, q, i, r', hc, hd, ho, hq⟩ :=
        State.fetch_cases { s with events := es, active := a } a
      case inr.inr.inr =>
        cases (he.trans hq).symm.trans hi
        rw [objection_of_turn] at ho
        exact ⟨a, c, q, es, i, hevents, by cases a <;> exact hc, hd, ho⟩
      all_goals cases (he.trans hq).symm.trans hi
    all_goals cases he.symm.trans hi

/-- Settles O4: the objections are the two that the statement names, and each is raised at its turn. -/
theorem secondProducerOrConsumerIsRefused : Obligations.SecondProducerOrConsumerIsRefused := by
  refine ⟨fun s r h => ?_, fun s a c q rest i he hq hd hon hidle => ⟨fun hout => ?_, fun n ha hn => ?_⟩⟩
  · obtain ⟨a, c, q, rest, i, he, hq, hd, hobj⟩ := objection_of_step_refused h
    refine ⟨a, c, q, rest, i, he, hq, hd, ?_⟩
    obtain ⟨ho, hr⟩ | ⟨ho, n, hn, hr⟩ | ⟨-, -, hr⟩ := s.objection_cases a i <;> cases hobj.symm.trans hr
    · exact .inl ⟨openTo_eq_false_iff.1 ho, rfl⟩
    · have hnot : NotReported s n i := State.offCount_eq_some.1 hn
      obtain rfl := hnot.1
      exact .inr ⟨consumer_of_openTo ho rfl, n, hnot, rfl⟩
  · exact step_of_objection he hon hidle hq hd (objection_notOpen hout)
  · subst ha
    exact step_of_objection he hon hidle hq hd (objection_notReported hn)

/-- A step faults only by the operation it runs. -/
theorem run_of_step_fault {s : State} {f : Fault} (h : step s = .fault f) : ∃ i u, s.issue = .run i u ∧ exec i u = .fault f := by
  cases hi : s.issue with
  | run i u => exact ⟨i, u, rfl, (step_of_run hi).symm.trans h⟩
  | done u => cases (step_of_done hi).symm.trans h
  | refuse r => cases (step_of_refuse hi).symm.trans h

/-- Settles O15: a pending decision counts no more than its snapshot, which the content begins with. -/
theorem tryExtractNeverFaults : Obligations.TryExtractNeverFaults := by
  rintro s f ⟨-, hfits, -⟩ h
  obtain ⟨i, u, hi, hfault⟩ := run_of_step_fault h
  obtain ⟨a, es, hissues⟩ := issues_of_run hi
  have hbeyond := exec_eq_fault_iff.1 hfault
  simp only [CountsBeyond, State.size, hissues.acc, hissues.inFlight] at hbeyond
  obtain ⟨n, rfl, hn, -⟩ | ⟨n, rfl, hn, -⟩ | ⟨-, ⟨v, d, hv, hd⟩, -⟩ := hbeyond
  · exact ⟨n, u, hn, .inl hi⟩
  · exact ⟨n, u, hn, .inr hi⟩
  · rw [hv] at hfits
    obtain ⟨hprefix, rfl⟩ := hfits
    have hcount := parse_count_le_length s.config v
    have hlen := hprefix.length_le
    omega

section
variable {s t u : State} {rest es : List Event} {a : Agent} {i : Instr}

/-- A turn's operation is issued by the agent whose turn it is. -/
theorem Issues.agent_eq {b : Agent} (h : Issues s a es i u) (he : s.events = .turn b :: rest) : a = b := by
  cases he.symm.trans h.events
  rfl

/-- What a turn that runs no operation leaves: everything of the block. -/
theorem frame_of_turn_done (he : s.events = .turn a :: rest) (h : s.issue = .done t) :
    t.acc = s.acc ∧ t.inFlight = s.inFlight ∧ t.report = s.report := by
  obtain rfl | ⟨es, he', -⟩ | ⟨es, he', -⟩ | ⟨es, he', -⟩ | ⟨b, es, -, rfl⟩ | ⟨b, es, c, q, -, -, -, rfl⟩ := issue_done_cases h
  · exact ⟨rfl, rfl, rfl⟩
  · cases he.symm.trans he'
  · cases he.symm.trans he'
  · cases he.symm.trans he'
  · exact ⟨rfl, rfl, rfl⟩
  · cases b <;> exact ⟨rfl, rfl, rfl⟩

/-- A producer's step leaves what is in flight and the report, and the content but for the chunk of a `PUT` behind it. -/
theorem producer_step (he : s.events = producerTurn :: rest) (h : step s = .next t) :
    t.inFlight = s.inFlight ∧ t.report = s.report ∧
    (t.acc = s.acc ∨ ∃ c q b, s.producerQueue = c :: q ∧ decode c = .ok (.put b) ∧ t.acc = s.acc ++ b) := by
  obtain hdone | ⟨a, es, i, u, hissues, hexec⟩ := step_next_cases h
  · obtain ⟨hacc, hf, hr⟩ := frame_of_turn_done he hdone
    exact ⟨hf, hr, .inl hacc⟩
  · obtain rfl := hissues.agent_eq he
    have hopened := hissues.opened
    obtain ⟨⟨-, -, -, -, -, -, hreport⟩, -, hblock⟩ := exec_next hexec
    rw [hissues.report] at hreport
    simp only [hissues.acc, hissues.inFlight] at hblock
    obtain ⟨hacc, hf⟩ | ⟨b, rfl, -, hacc, hf⟩ | ⟨n, rfl, -⟩ | ⟨rfl, -⟩ | ⟨rfl, -⟩ | ⟨v, rfl, -⟩ | ⟨v, d, rfl, -⟩ := hblock
    · exact ⟨hf, hreport, .inl hacc⟩
    · obtain ⟨c, q, hq, hd⟩ := hissues.request (.inr rfl)
      exact ⟨hf, hreport, .inr ⟨c, q, b, hq, hd, hacc⟩⟩
    all_goals cases hopened

/-- An operation the consumer issues removes some bytes of the front, none among the cases. -/
theorem acc_of_consumer_issues (hissues : Issues s .consumer es i u) (hexec : exec i u = .next t) :
    ∃ n, t.acc = s.acc.drop n := by
  have hopened := hissues.opened
  obtain ⟨-, -, hblock⟩ := exec_next hexec
  simp only [hissues.acc] at hblock
  obtain ⟨hacc, -⟩ | ⟨b, rfl, -⟩ | ⟨n, -, -, hacc, -⟩ | ⟨-, hacc, -⟩ | ⟨-, -, hacc, -⟩ | ⟨v, -, -, hacc, -⟩ |
    ⟨v, d, -, -, -, hacc, -⟩ := hblock
  · exact ⟨0, hacc⟩
  · cases hopened
  · exact ⟨n, hacc⟩
  · exact ⟨s.acc.length, by rw [hacc, List.drop_length]⟩
  · exact ⟨0, hacc⟩
  · exact ⟨0, hacc⟩
  · exact ⟨d.count, hacc⟩

end

/-- Settles O25. -/
theorem appendAtTailRemoveAtFront : Obligations.AppendAtTailRemoveAtFront := by
  refine fun s t rest h => ⟨fun he => ?_, fun he => ?_⟩
  · obtain ⟨hf, -, hacc | ⟨c, q, b, -, -, hacc⟩⟩ := producer_step he h
    · exact ⟨⟨[], by rw [hacc, List.append_nil]⟩, hf⟩
    · exact ⟨⟨b, hacc⟩, hf⟩
  · obtain hdone | ⟨a, es, i, u, hissues, hexec⟩ := step_next_cases h
    · obtain ⟨hacc, -, -⟩ := frame_of_turn_done he hdone
      exact ⟨0, hacc⟩
    · obtain rfl := hissues.agent_eq he
      exact acc_of_consumer_issues hissues hexec

/-- What is kept once the producer is stopped, from the state `s` on. -/
structure ProducerSilent (s t : State) : Prop where
  stopped : t.producerOn = false
  results : t.resultsOf .producer = s.resultsOf .producer
  queue : t.producerQueue = s.producerQueue
  acc : t.acc <:+ s.acc

/-- Results handed to the consumer are none of the producer's. -/
theorem resultsOf_producer_append {s t : State} {l : List Delivery} (hd : t.delivered = s.delivered ++ l)
    (hl : ∀ d ∈ l, d.agent = .consumer) : t.resultsOf .producer = s.resultsOf .producer := by
  have hnone : l.filter (fun d => d.agent = .producer) = [] := by
    refine List.filter_eq_nil_iff.2 fun d hmem => ?_
    simp [hl d hmem]
  simp only [State.resultsOf, hd, List.filter_append, hnone, List.append_nil]

/-- One step after the stop. -/
theorem producerSilent_step {s t : State} (hoff : s.producerOn = false) (h : step s = .next t) : ProducerSilent s t := by
  obtain hdone | ⟨a, es, i, u, hissues, hexec⟩ := step_next_cases h
  · obtain rfl | ⟨es, -, rfl⟩ | ⟨es, -, rfl⟩ | ⟨es, -, rfl⟩ | ⟨a, es, -, rfl⟩ | ⟨a, es, c, q, -, hon, -, rfl⟩ :=
      issue_done_cases hdone
    · exact ⟨hoff, rfl, rfl, List.suffix_refl _⟩
    · exact ⟨hoff, rfl, rfl, List.suffix_refl _⟩
    · exact ⟨rfl, rfl, rfl, List.suffix_refl _⟩
    · exact ⟨hoff, rfl, rfl, List.nil_suffix⟩
    · exact ⟨hoff, rfl, rfl, List.suffix_refl _⟩
    · cases a with
      | producer => rw [hon rfl] at hoff; cases hoff
      | consumer => exact ⟨hoff, resultsOf_producer_append rfl (by simp), rfl, List.suffix_refl _⟩
  · cases a with
    | producer => rw [hissues.running rfl] at hoff; cases hoff
    | consumer =>
      obtain ⟨⟨-, -, hon, hqueue, -, -, -⟩, ⟨l, hd, hl⟩, -⟩ := exec_next hexec
      rw [hissues.delivered] at hd
      rw [hissues.active] at hl
      obtain ⟨n, hacc⟩ := acc_of_consumer_issues hissues hexec
      exact ⟨by rw [hon, hissues.producerOn, hoff], resultsOf_producer_append hd hl, by rw [hqueue, hissues.producerQueue rfl],
        by rw [hacc]; exact List.drop_suffix n s.acc⟩

/-- Settles O7: each step after the stop keeps `ProducerSilent`. -/
theorem stoppedProducerIssuesNothing : Obligations.StoppedProducerIssuesNothing := by
  refine ⟨fun s rest he => step_of_done (State.issue_stopProducer he), fun n s t hoff hrun => ?_⟩
  have hkept : ProducerSilent s t := by
    refine run_induction (P := ProducerSilent s) (fun u v hu hstep => ?_) n s t ⟨hoff, rfl, rfl, List.suffix_refl _⟩ hrun
    have hv := producerSilent_step hu.stopped hstep
    exact ⟨hv.stopped, hv.results.trans hu.results, hv.queue.trans hu.queue, hv.acc.trans hu.acc⟩
  exact ⟨hkept.stopped, hkept.results, hkept.queue, hkept.acc⟩

section
variable {s : State} {a : Agent} {c : Command} {q : List Command} {rest : List Event} {i : Instr}

/-- A stopped producer's turn passes (70_reset_and_hazards.md R172). -/
theorem issue_of_stopped (he : s.events = producerTurn :: rest) (hoff : ¬ s.producerOn = true) :
    s.issue = .done { s with events := rest, active := .producer } := by
  rw [State.issue_turn he, State.takeTurn_producer, if_neg hoff]

theorem fetch_of_nil (hq : s.queue a = []) : s.fetch a = .done s := by
  simp only [State.fetch, hq]

theorem fetch_of_error {e : DecodeError} (hq : s.queue a = c :: q) (hd : decode c = .error e) :
    s.fetch a = .done ((s.setQueue a q).raise .badOp) := by
  simp only [State.fetch, hq, hd]

/-- What the table opens to the producer, but for `PUT`, reads its arguments and the parameters alone. -/
theorem stateless_of_openTo_producer (ho : openTo .producer i = true) (hput : ∀ b, i ≠ .put b) : stateless i = true := by
  cases i with
  | put b => exact absurd rfl (hput b)
  | peek _ | consume _ | reset | tryExtract | send _ _ _ => cases ho
  | crc16 _ | crc32 _ | b64enc _ | b64dec _ | parse _ | encode _ _ _ => rfl

/-- Only a `CONSUME` is objected to for its count, and no producer's is opened to begin with. -/
theorem objection_producer_eq_none (ho : openTo .producer i = true) : s.objection .producer i = none := by
  refine State.objection_eq_none (fun h => ?_) fun n h => ?_
  · rw [openTo_eq_false_iff.2 h] at ho
    cases ho
  · obtain rfl := h.1
    cases ho

/-- A producer's step on anything but a `PUT` goes the same way with any other content. -/
theorem producer_step_other (other : Bytes) (he : s.events = producerTurn :: rest)
    (hput : ∀ c q b, s.producerQueue = c :: q → decode c ≠ .ok (.put b)) :
    (∃ r, step s = .refused r ∧ step { s with acc := other } = .refused r) ∨
    (∃ t, step s = .next t ∧ t.acc = s.acc ∧ step { s with acc := other } = .next { t with acc := other }) := by
  by_cases hon : s.producerOn = true
  case neg =>
    exact .inr ⟨_, step_of_done (issue_of_stopped he hon), rfl, step_of_done (issue_of_stopped (s := { s with acc := other }) he hon)⟩
  case pos =>
    have hissue := issue_of_turn he (fun _ => hon) (by simp)
    have hissue' := issue_of_turn (s := { s with acc := other }) he (fun _ => hon) (by simp)
    cases hq : s.queue .producer with
    | nil => exact .inr ⟨_, step_of_done (hissue.trans (fetch_of_nil hq)), rfl, step_of_done (hissue'.trans (fetch_of_nil hq))⟩
    | cons c q =>
      cases hd : decode c with
      | error e =>
        exact .inr ⟨_, step_of_done (hissue.trans (fetch_of_error hq hd)), rfl,
          step_of_done (hissue'.trans (fetch_of_error hq hd))⟩
      | ok i =>
        cases ho : openTo .producer i with
        | false =>
          have hout := openTo_eq_false_iff.1 ho
          exact .inl ⟨_, step_of_objection he (fun _ => hon) (by simp) hq hd (objection_notOpen hout),
            step_of_objection (s := { s with acc := other }) he (fun _ => hon) (by simp) hq hd (objection_notOpen hout)⟩
        | true =>
          obtain ⟨r, hr⟩ := statelessOperationsReadOnlyArguments i
            (stateless_of_openTo_producer ho fun b hb => hput c q b hq (hb ▸ hd))
          have hrun := step_of_request he (fun _ => hon) (by simp) hq hd (objection_producer_eq_none ho)
          have hrun' := step_of_request (s := { s with acc := other }) he (fun _ => hon) (by simp) hq hd
            (objection_producer_eq_none ho)
          exact .inr ⟨_, hrun.trans (hr _), rfl, hrun'.trans (hr _)⟩

end

/-- Settles O24: a `PUT` runs; the content changes only by one; and anything else goes the same way whatever the content. -/
theorem producerTouchesOnlyByFeed : Obligations.ProducerTouchesOnlyByFeed := by
  refine ⟨fun s bytes q rest he hon hq => ?_, fun s t rest he h hne => ?_, fun s rest other he hput => ?_⟩
  · exact step_of_request (a := .producer) he (fun _ => hon) (by simp) hq (decode_encode (.put bytes))
      (objection_producer_eq_none rfl)
  · obtain ⟨-, -, hacc | hput⟩ := producer_step he h
    · exact absurd hacc hne
    · exact hput
  · obtain ⟨r, hr, hr'⟩ | ⟨t, ht, hacc, ht'⟩ := producer_step_other other he hput
    · rw [hr]
      exact ⟨by simp, fun r' h => by cases h; exact hr', by simp⟩
    · rw [ht]
      exact ⟨by simp, by simp, fun t' h => by cases h; exact ⟨hacc, ht'⟩⟩

section
variable {s t : State} {rest : List Event} {i : Instr}

/-- After a step on the consumer's request the report is what that request tells. -/
theorem report_of_request (he : s.events = consumerTurn :: rest) (hreq : Requests s i) (h : step s = .next t) :
    t.report = s.reportAfter i := by
  obtain ⟨hidle, c, q, hq, hd⟩ := hreq
  have hq' : s.queue .consumer = c :: q := hq
  cases ho : s.objection .consumer i with
  | some r => cases (step_of_objection he (by simp) (fun _ => hidle) hq' hd ho).symm.trans h
  | none =>
    obtain ⟨⟨-, -, -, -, -, -, hreport⟩, -⟩ := exec_next ((step_of_request he (by simp) (fun _ => hidle) hq' hd ho).symm.trans h)
    exact hreport.trans (State.reportAfter_congr rfl rfl rfl i)

/-- After a step on the next phase of a `try_extract` it is what that phase tells. -/
theorem report_of_phase (he : s.events = consumerTurn :: rest) (hf : s.inFlight ≠ .idle) (h : step s = .next t) :
    t.report = s.reportAfterPhase := by
  obtain ⟨⟨-, -, -, -, -, -, hreport⟩, -⟩ := exec_next ((stepContinuesTryExtract s rest he hf).symm.trans h)
  exact hreport

/-- A consumer's step leaves the report, unless it is on a request or a phase. -/
theorem consumer_report_cases (he : s.events = consumerTurn :: rest) (h : step s = .next t) :
    t.report = s.report ∨ (∃ i, Requests s i) ∨ s.inFlight ≠ .idle := by
  obtain hdone | ⟨a, es, i, u, hissues, -⟩ := step_next_cases h
  · obtain ⟨-, -, hreport⟩ := frame_of_turn_done he hdone
    exact .inl hreport
  · obtain rfl := hissues.agent_eq he
    by_cases hidle : s.inFlight = .idle
    · exact .inr (.inl ⟨i, hidle, hissues.request (.inl hidle)⟩)
    · exact .inr (.inr hidle)

/-- A request that copies, parses and removes nothing tells the consumer nothing. -/
theorem reportAfter_eq_self (hreq : Requests s i) (hcopy : ∀ v, ¬ Copies s v) (hparse : ∀ view, ¬ Parses s view)
    (hremove : ¬ Removes s) : s.reportAfter i = s.report := by
  cases i with
  | peek n => exact absurd (.inl ⟨n, hreq, rfl⟩) (hcopy (s.acc.take n))
  | consume n => exact absurd (.inl ⟨n, hreq⟩) hremove
  | reset => exact absurd (.inr (.inl hreq)) hremove
  | parse view => exact absurd (.inl hreq) (hparse view)
  | tryExtract => exact absurd (.inr ⟨hreq, rfl⟩) (hcopy s.acc)
  | crc16 _ | crc32 _ | b64enc _ | b64dec _ | put _ | encode _ _ _ | send _ _ _ => rfl

end

/-- Settles O54: clause by clause, by what the request or the phase tells. -/
theorem reportFollowsParser : Obligations.ReportFollowsParser := by
  refine fun s t rest h => ⟨?_, fun copy he => ?_, fun view he => ?_, fun he => ?_, fun he hcopy hparse hremove => ?_⟩
  · rintro (he | he)
    · obtain ⟨-, hr, -⟩ := producer_step he h
      exact hr
    · cases (cancellationLeavesBytes s rest he).symm.trans h
      rfl
  · rintro (⟨n, hreq, rfl⟩ | ⟨hreq, rfl⟩)
    · exact report_of_request he hreq h
    · have hreport := report_of_request he hreq h
      simp only [State.reportAfter, State.reportAfterPhase, hreq.1] at hreport
      exact hreport
  · rintro (hreq | hf)
    · exact ⟨_, report_of_request he hreq h, fun v => mem_insertView⟩
    · have hreport := report_of_phase he (by simp [hf]) h
      simp only [State.reportAfterPhase, hf] at hreport
      exact ⟨_, hreport, fun v => mem_insertView⟩
  · rintro (⟨n, hreq⟩ | hreq | ⟨view, d, hf, hd⟩)
    · exact report_of_request he hreq h
    · exact report_of_request he hreq h
    · have hreport := report_of_phase he (by simp [hf]) h
      simp only [State.reportAfterPhase, hf, if_neg hd] at hreport
      exact hreport
  · obtain hr | ⟨i, hreq⟩ | hf := consumer_report_cases he h
    · exact hr
    · exact (report_of_request he hreq h).trans (reportAfter_eq_self hreq hcopy hparse hremove)
    · rw [report_of_phase he hf h, State.reportAfterPhase]
      cases hphase : s.inFlight with
      | idle => exact absurd hphase hf
      | viewed view => exact absurd (.inr hphase) (hparse view)
      | decided view d =>
        by_cases hd : d = .needMoreData
        · exact if_pos hd
        · exact absurd (.inr (.inr ⟨view, d, hphase, hd⟩)) hremove

/-- In a state that meets the invariant a reported count is within the occupancy. -/
theorem le_size_of_reported {s : State} {n : Nat} (hinv : BlockInv s) (h : Reported s n) : n ≤ s.size := by
  obtain ⟨-, -, hsnapshots, -⟩ := hinv
  obtain ⟨v, -, ⟨u, hu, hprefix⟩, rfl⟩ := h
  exact (parse_count_le_length s.config v).trans (hprefix.trans (hsnapshots u hu)).length_le

/-- Nothing is objected to a `CONSUME` that follows no parse, or is of a reported count. -/
theorem objection_consume_eq_none {s : State} {n : Nat} (h : ¬ HasParsed s.report ∨ Reported s n) :
    s.objection .consumer (.consume n) = none := by
  refine State.objection_eq_none (by simp [OutsideTable]) ?_
  rintro m ⟨hm, -, hparsed, hnot⟩
  cases hm
  exact h.elim (fun hnone => hnone hparsed) hnot

/-- Settles O53. -/
theorem reportedCountIsConsumed : Obligations.ReportedCountIsConsumed := by
  intro s n q rest he hq hidle h
  have hsize : n ≤ s.size := h.elim (fun h => h.2) fun h => le_size_of_reported h.2 h.1
  have hnone : s.objection .consumer (.consume n) = none :=
    objection_consume_eq_none (h.imp (fun h => h.1) fun h => h.1)
  rw [step_of_request (a := .consumer) he (by simp) (fun _ => hidle) hq (decode_encode (.consume n)) hnone]
  exact exec_consume hsize

end Sys2Proof.Machine

/-! Runs: the consumer's `TRY_EXTRACT` from T1 to T3, alone and with the producer's feeds between its phases (spec/43_framer.md R130 to R136,
70_reset_and_hazards.md R173 to R180), and the operations that have no order (20_memory.md R57). -/

namespace Sys2Proof.Machine

theorem run_one {s t : State} (h : step s = .next t) : run 1 s = .next t := by
  rw [run_succ 0 h, run_zero]

/-- One run after another. -/
theorem run_trans {s t u : State} {m n : Nat} (h : run m s = .next t) (h' : run n t = .next u) : run (m + n) s = .next u :=
  (run_add n m s h).trans h'

section
variable {s : State} {q : List Command} {rest : List Event} {i : Instr}

/-- The consumer's turn on an operation that the table opens to it and that is no `CONSUME`. -/
theorem step_consumer (he : s.events = consumerTurn :: rest) (hidle : s.inFlight = .idle) (hq : s.consumerQueue = encode i :: q)
    (ho : openTo .consumer i = true) (hc : ∀ n, i ≠ .consume n) :
    step s = exec i { s with events := rest, active := .consumer, consumerQueue := q, report := s.reportAfter i } := by
  have hnone : s.objection .consumer i = none := by
    refine State.objection_eq_none (fun h => ?_) fun n h => hc n h.1
    rw [openTo_eq_false_iff.2 h] at ho
    cases ho
  rw [step_of_request (a := .consumer) he (by simp) (fun _ => hidle) hq (decode_encode i) hnone]
  rfl

/-- The state after T1, a step of the consumer with `q` left in its queue and `rest` of the events. -/
def State.afterT1 (s : State) (q : List Command) (rest : List Event) : State :=
  { s with
    events := rest
    active := .consumer
    consumerQueue := q
    inFlight := .viewed s.acc
    report := s.report.noteCopy s.acc }

theorem step_T1 (he : s.events = consumerTurn :: rest) (hidle : s.inFlight = .idle) (hq : s.consumerQueue = tryExtractCommand :: q) :
    step s = .next (s.afterT1 q rest) := by
  rw [step_consumer he hidle hq rfl (by simp), exec_tryExtract_of_idle]
  · simp only [State.reportAfter, State.reportAfterPhase, hidle, State.afterT1]
  · exact hidle

/-- The state after T2 on the copy `view`. -/
def State.afterT2 (s : State) (view : Bytes) (rest : List Event) : State :=
  { s with
    events := rest
    active := .consumer
    inFlight := .decided view (parse s.config view)
    report := s.report.noteParse view }

theorem step_T2 {view : Bytes} (he : s.events = consumerTurn :: rest) (hf : s.inFlight = .viewed view) :
    step s = .next (s.afterT2 view rest) := by
  rw [stepContinuesTryExtract s rest he (by simp [hf]), exec_tryExtract_of_viewed (view := view)]
  · simp only [State.note_consumer, State.reportAfter, State.reportAfterPhase, hf, State.afterT2]
  · exact hf

/-- The state after T3 with the decision `d`. -/
def State.afterT3 (s : State) (d : Decision) (rest : List Event) : State :=
  { s with
    events := rest
    active := .consumer
    acc := s.acc.drop d.count
    inFlight := .idle
    report := s.reportAfterPhase
    delivered := s.delivered ++ [{ agent := .consumer, result := .decision d }] }

theorem step_T3 {view : Bytes} {d : Decision} (he : s.events = consumerTurn :: rest) (hf : s.inFlight = .decided view d)
    (hd : d.count ≤ s.size) : step s = .next (s.afterT3 d rest) := by
  rw [stepContinuesTryExtract s rest he (by simp [hf])]
  exact exec_tryExtract_of_decided hf hd

/-- The state after the producer has fed the `chunks`, all accepted, `a` having acted last. -/
def State.afterFeeds (s : State) (chunks : List Bytes) (a : Agent) (q : List Command) (rest : List Event) : State :=
  { s with
    events := rest
    active := a
    producerQueue := q
    acc := s.acc ++ chunks.flatten
    delivered := s.delivered ++ List.replicate chunks.length { agent := .producer, result := .ok } }

/-- What a feed of `b`, that is, a `PUT` of the producer, leaves of the content and is answered with: the chunk is appended whole, or not at
all. -/
def State.feedAcc (s : State) (b : Bytes) : Memory :=
  if s.size + b.length ≤ s.config.capacity then s.acc ++ b else s.acc

def State.feedResult (s : State) (b : Bytes) : Result :=
  if s.size + b.length ≤ s.config.capacity then .ok else .err .capacity

theorem step_feed {b : Bytes} (he : s.events = producerTurn :: rest) (hon : s.producerOn = true)
    (hq : s.producerQueue = encode (.put b) :: q) :
    step s = .next { s with
      events := rest
      active := .producer
      producerQueue := q
      acc := s.feedAcc b
      delivered := s.delivered ++ [{ agent := .producer, result := s.feedResult b }] } := by
  obtain ⟨hput, -, -⟩ := producerTouchesOnlyByFeed
  rw [hput s b q rest he hon hq, State.feedAcc, State.feedResult]
  obtain ⟨hfit, hexec⟩ | ⟨hover, hexec⟩ := execPut_cases b { s with events := rest, active := .producer, producerQueue := q }
  · rw [if_pos hfit, if_pos hfit]
    exact hexec
  · rw [if_neg (Nat.not_le_of_lt hover), if_neg (Nat.not_le_of_lt hover)]
    exact hexec

theorem step_feed_of_fits {b : Bytes} (he : s.events = producerTurn :: rest) (hon : s.producerOn = true)
    (hq : s.producerQueue = encode (.put b) :: q) (hfit : s.size + b.length ≤ s.config.capacity) :
    step s = .next (s.afterFeeds [b] .producer q rest) := by
  rw [step_feed he hon hq, State.feedAcc, State.feedResult, if_pos hfit, if_pos hfit, State.afterFeeds, List.flatten_singleton]
  rfl

/-- The state after a `TRY_EXTRACT` with nothing between its phases. -/
def State.afterTryExtract (s : State) (q : List Command) (rest : List Event) : State :=
  ((s.afterT1 q rest).afterT2 s.acc rest).afterT3 (parse s.config s.acc) rest

/-- The three phases with nothing between them: the decision of the content, applied and handed over. -/
theorem run_tryExtract (he : s.events = consumerTurn :: consumerTurn :: consumerTurn :: rest) (hidle : s.inFlight = .idle)
    (hq : s.consumerQueue = tryExtractCommand :: q) : run 3 s = .next (s.afterTryExtract q rest) := by
  have hT1 := step_T1 he hidle hq
  have hT2 := step_T2 (s := s.afterT1 q (consumerTurn :: consumerTurn :: rest)) rfl rfl
  have hT3 := step_T3 (s := (s.afterT1 q (consumerTurn :: consumerTurn :: rest)).afterT2 s.acc (consumerTurn :: rest)) rfl rfl
    (parse_count_le_length s.config s.acc)
  exact run_trans (run_one hT1) (run_trans (run_one hT2) (run_one hT3))

end

/-- A decision that is no wait counts at least one byte. -/
theorem Decision.count_pos {d : Decision} (h : d ≠ .needMoreData) : 1 ≤ d.count := by
  cases d with
  | needMoreData => exact absurd rfl h
  | discard n pos => exact pos
  | packet value consumed holdsHeader => exact Nat.le_trans (by decide) holdsHeader

/-- A view of `MSG_LEN_MAX` bytes that exceeds the ceiling never waits (70_reset_and_hazards.md R178). -/
theorem parse_ne_needMoreData {cfg : Config} {view : Bytes} (hmax : cfg.msgLenMax ≤ view.length)
    (hceiling : cfg.garbageCeiling < view.length) (h20 : 20 ≤ cfg.msgLenMax) : parse cfg view ≠ .needMoreData := by
  intro hparse
  by_cases hm : MarkerAt view 0
  · rw [parse_of_markerAt_zero _ hm] at hparse
    obtain ⟨hl, -⟩ | ⟨-, -, he⟩ | ⟨-, -, hle, ⟨hl, -⟩ | ⟨-, -, he⟩ | ⟨-, -, _, he⟩⟩ := parseAtMarker_cases cfg view
    · omega
    · cases he.symm.trans hparse
    · omega
    · cases he.symm.trans hparse
    · cases he.symm.trans hparse
  · obtain ⟨-, hl | ⟨-, hl⟩⟩ | ⟨⟨_, he⟩, -⟩ | ⟨k, _, he, -⟩ := parse_of_not_markerAt_zero cfg hm
    · omega
    · omega
    · cases he.symm.trans hparse
    · cases he.symm.trans hparse

/-- Settles O42: the decision of a full content counts at least one byte. -/
theorem fullAccumulatorFreesBytes : Obligations.FullAccumulatorFreesBytes := by
  intro s q rest ⟨hmax, hceiling⟩ h20 hfull hidle hq he
  have hrun := run_tryExtract he hidle hq
  rw [State.size] at hfull
  have hpos : 1 ≤ (parse s.config s.acc).count := Decision.count_pos (parse_ne_needMoreData (by omega) (by omega) h20)
  refine ⟨_, hrun, ?_, rfl⟩
  change (s.acc.drop (parse s.config s.acc).count).length < s.acc.length
  rw [List.length_drop]
  omega

/-- Settles O45: the first decision is to discard what stands before the first marker, the second the packet of what is then left. -/
theorem resyncUnderNoise : Obligations.ResyncUnderNoise := by
  intro s garbage f q rest hne hf hnone hacc hidle hq he
  have hg : 1 ≤ garbage.length := List.length_pos_of_ne_nil hne
  have hdiscard : parse s.config s.acc = .discard garbage.length hg := by
    rw [hacc]
    exact parse_of_first_marker hg ((markerAt_append_right garbage f).2 hf.1) hnone
  have hpacket : parse s.config f = .packet (packetOf f) f.length hf.header_le := parse_validFrame hf
  have hfirst := run_tryExtract he hidle hq
  have hsecond := run_tryExtract (s := s.afterTryExtract _ _) (q := q) (rest := rest) rfl rfl rfl
  have hleft : s.acc.drop (parse s.config s.acc).count = f := by
    rw [hdiscard, Decision.count, hacc, List.drop_left]
  refine ⟨_, packetOf f, hg, hf.header_le, ⟨hf.header_le, answers_parse hpacket⟩, run_trans hfirst hsecond, ?_, ?_⟩
  · change (s.acc.drop (parse s.config s.acc).count).drop
      (parse s.config (s.acc.drop (parse s.config s.acc).count)).count = []
    rw [hleft, hpacket]
    exact List.drop_length
  · change s.delivered ++ [⟨.consumer, .decision (parse s.config s.acc)⟩]
      ++ [⟨.consumer, .decision (parse s.config (s.acc.drop (parse s.config s.acc).count))⟩] = _
    rw [hleft, hpacket, hdiscard, List.append_assoc]
    rfl

/-- Feeds in a row that all fit are all appended and answered `Ok`. -/
theorem run_feeds {rest : List Event} {q : List Command} (chunks : List Bytes) :
    ∀ s : State, s.events = List.replicate chunks.length producerTurn ++ rest → s.producerOn = true →
      s.producerQueue = chunks.map (fun b => encode (.put b)) ++ q →
      s.acc.length + chunks.flatten.length ≤ s.config.capacity →
      ∃ a, run chunks.length s = .next (s.afterFeeds chunks a q rest) := by
  induction chunks with
  | nil =>
    intro s he _ hq _
    obtain rfl : s.events = rest := he
    obtain rfl : s.producerQueue = q := hq
    exact ⟨s.active, by simp [run_zero, State.afterFeeds]⟩
  | cons b chunks ih =>
    intro s he hon hq hfit
    rw [List.flatten_cons, List.length_append] at hfit
    have hstep := step_feed_of_fits (rest := List.replicate chunks.length producerTurn ++ rest)
      (q := chunks.map (fun b => encode (.put b)) ++ q) he hon hq (show s.acc.length + b.length ≤ s.config.capacity by omega)
    obtain ⟨a, hrun⟩ := ih (s.afterFeeds [b] .producer _ _) rfl hon rfl
      (show (s.acc ++ [b].flatten).length + chunks.flatten.length ≤ s.config.capacity by
        rw [List.flatten_singleton, List.length_append]; omega)
    refine ⟨a, (run_succ chunks.length hstep).trans (hrun.trans ?_)⟩
    simp [State.afterFeeds, List.replicate_succ]

theorem run_then_feeds {s t : State} {n : Nat} {rest : List Event} {q : List Command} (h : run n s = .next t) (chunks : List Bytes)
    (he : t.events = List.replicate chunks.length producerTurn ++ rest) (hon : t.producerOn = true)
    (hq : t.producerQueue = chunks.map (fun b => encode (.put b)) ++ q)
    (hfit : t.acc.length + chunks.flatten.length ≤ t.config.capacity) :
    ∃ a, run (n + chunks.length) s = .next (t.afterFeeds chunks a q rest) := by
  obtain ⟨a, hrun⟩ := run_feeds chunks t he hon hq hfit
  exact ⟨a, run_trans h hrun⟩

/-- Settles O44: T1, the first feeds, T2, the others, T3; the copy of T1 is what is parsed, and its decision counts no more than the copy has. -/
theorem interleavedTryExtract : Obligations.InterleavedTryExtract := by
  intro s chunks1 chunks2 pq cq rest hidle hon hfit hpq hcq he
  rw [List.map_append, List.append_assoc] at hpq
  rw [List.append_assoc, List.cons_append, List.cons_append] at he
  rw [List.flatten_append, List.length_append] at hfit
  have hcount := parse_count_le_length s.config s.acc
  obtain ⟨a1, hfed1⟩ := run_then_feeds (run_one (step_T1 he hidle hcq)) chunks1 rfl hon hpq
    (show s.acc.length + chunks1.flatten.length ≤ s.config.capacity by rw [State.size] at hfit; omega)
  obtain ⟨a2, hfed2⟩ := run_then_feeds (run_trans hfed1 (run_one (step_T2 rfl rfl))) chunks2 rfl hon rfl
    (show (s.acc ++ chunks1.flatten).length + chunks2.flatten.length ≤ s.config.capacity by
      rw [List.length_append, Nat.add_assoc]; exact hfit)
  have hrun := run_trans hfed2 (run_one (step_T3 rfl rfl
    (show (parse s.config s.acc).count ≤ (s.acc ++ chunks1.flatten ++ chunks2.flatten).length by
      simp only [List.length_append]; omega)))
  rw [show 1 + chunks1.length + 1 + chunks2.length + 1 = chunks1.length + chunks2.length + 3 by omega] at hrun
  have hdelivered {t : State} (h : t.delivered = s.delivered ++ List.replicate chunks1.length ⟨.producer, .ok⟩
      ++ List.replicate chunks2.length ⟨.producer, .ok⟩ ++ [⟨.consumer, .decision (parse s.config s.acc)⟩]) :
      t.resultsOf .consumer = s.resultsOf .consumer ++ [.decision (parse s.config s.acc)] ∧
      t.resultsOf .producer = s.resultsOf .producer ++ List.replicate (chunks1.length + chunks2.length) .ok := by
    simp [State.resultsOf, h]
  refine ⟨_, _, answers_parse rfl, hrun, ?_, rfl, hdelivered rfl⟩
  change (s.acc ++ chunks1.flatten ++ chunks2.flatten).drop (parse s.config s.acc).count = _
  rw [List.append_assoc, List.drop_append_of_le_length hcount, List.flatten_append]

/-- A view that a valid frame begins with, and goes on, waits. -/
theorem parse_of_proper_prefix {cfg : Config} {f view : Bytes} (hf : ValidFrame cfg f) (hp : view <+: f)
    (hlt : view.length < f.length) : parse cfg view = .needMoreData := by
  obtain ⟨hm, hmin, hmax, hlen, -⟩ := hf
  obtain ⟨more, rfl⟩ := hp
  rcases Nat.lt_or_ge view.length 4 with h4 | h4
  · exact parse_of_length_lt_four cfg h4
  have hmv : MarkerAt view 0 := (markerAt_append_left more (by omega)).1 hm
  rcases Nat.lt_or_ge view.length 20 with h20 | h20
  · exact parse_of_incomplete_header hmv h20
  rw [le32_append_left more (by omega)] at hlen
  exact (parse_of_sane_length hmv h20 (by rwa [hlen]) (by rwa [hlen])).1 (by rwa [hlen])

/-- A state in which the producer is yet to feed `chunks`, and the consumer to run a `TRY_EXTRACT` after each. -/
structure AwaitsChunks (s : State) (chunks : List Bytes) : Prop where
  idle : s.inFlight = .idle
  running : s.producerOn = true
  feeds : s.producerQueue = chunks.map (fun b => encode (.put b))
  extracts : s.consumerQueue = List.replicate chunks.length tryExtractCommand
  turns : s.events = (List.replicate chunks.length [producerTurn, consumerTurn, consumerTurn, consumerTurn]).flatten

/-- One chunk fed and a `TRY_EXTRACT` run: the decision is of the content with the chunk. -/
theorem run_chunk {s : State} {b : Bytes} {chunks : List Bytes} (h : AwaitsChunks s (b :: chunks))
    (hfit : s.acc.length + b.length ≤ s.config.capacity) :
    ∃ t, run 4 s = .next t ∧ AwaitsChunks t chunks ∧ t.config = s.config ∧
      t.acc = (s.acc ++ b).drop (parse s.config (s.acc ++ b)).count ∧
      t.resultsOf .consumer = s.resultsOf .consumer ++ [.decision (parse s.config (s.acc ++ b))] := by
  have hrun := run_trans (run_one (step_feed_of_fits h.turns h.running h.feeds hfit)) (run_tryExtract rfl h.idle h.extracts)
  have hcontent : s.acc ++ [b].flatten = s.acc ++ b := by rw [List.flatten_singleton]
  refine ⟨_, hrun, ⟨rfl, h.running, rfl, rfl, rfl⟩, rfl, ?_, ?_⟩
  · change (s.acc ++ [b].flatten).drop (parse s.config (s.acc ++ [b].flatten)).count = _
    rw [hcontent]
  · have hdelivered {t : State}
        (h : t.delivered = s.delivered ++ [⟨.producer, .ok⟩] ++ [⟨.consumer, .decision (parse s.config (s.acc ++ [b].flatten))⟩]) :
        t.resultsOf .consumer = s.resultsOf .consumer ++ [.decision (parse s.config (s.acc ++ b))] := by
      simp [State.resultsOf, h]
    exact hdelivered rfl

/-- All but the last chunk make the consumer wait, and the last delivers the frame. -/
theorem run_chunks {f : Bytes} (chunks : List Bytes) : ∀ (s : State) (hf : ValidFrame s.config f), AwaitsChunks s chunks →
    chunks ≠ [] → [] ∉ chunks → s.acc ++ chunks.flatten = f → f.length ≤ s.config.capacity →
    ∃ t, run (4 * chunks.length) s = .next t ∧ t.acc = [] ∧ t.inFlight = .idle ∧
      t.resultsOf .consumer = s.resultsOf .consumer ++ List.replicate (chunks.length - 1) (.decision .needMoreData)
        ++ [.decision (.packet (packetOf f) f.length hf.header_le)] := by
  induction chunks with
  | nil => exact fun _ _ _ hne => absurd rfl hne
  | cons b chunks ih =>
    intro s hf h _ hnil hcontent hfit
    have hlen : s.acc.length + b.length + chunks.flatten.length = f.length := by
      rw [← hcontent, List.flatten_cons, List.length_append, List.length_append, Nat.add_assoc]
    obtain ⟨t, hrun, ht, hconfig, hacc, hresults⟩ := run_chunk h (by omega)
    cases chunks with
    | nil =>
      rw [List.flatten_singleton] at hcontent
      rw [hcontent, parse_validFrame hf] at hacc hresults
      exact ⟨t, hrun, hacc.trans List.drop_length, ht.idle, by simpa using hresults⟩
    | cons c chunks =>
      have hnil' : [] ∉ c :: chunks := fun hmem => hnil (List.mem_cons_of_mem b hmem)
      have hc : c.length ≠ 0 := fun h0 => hnil' (List.length_eq_zero_iff.1 h0 ▸ List.mem_cons_self)
      rw [List.flatten_cons, ← List.append_assoc] at hcontent
      have hwait : parse s.config (s.acc ++ b) = .needMoreData := by
        refine parse_of_proper_prefix hf ⟨_, hcontent⟩ ?_
        rw [List.flatten_cons, List.length_append] at hlen
        rw [List.length_append]
        omega
      rw [hwait] at hacc hresults
      obtain ⟨u, hrun', huacc, huidle, huresults⟩ := ih t (by rwa [hconfig]) ht (List.cons_ne_nil c chunks) hnil'
        (by rw [hacc]; exact hcontent) (by rwa [hconfig])
      refine ⟨u, ?_, huacc, huidle, ?_⟩
      · rw [List.length_cons, Nat.mul_succ, Nat.add_comm]
        exact run_trans hrun hrun'
      · rw [huresults, hresults]
        simp [List.replicate_succ]

/-- Settles O48. -/
theorem partialDelivery : Obligations.PartialDelivery := by
  intro s f chunks hf hflat hnil hfit hacc hidle hon hpq hcq he
  have hne : chunks ≠ [] := by
    rintro rfl
    have hheader := hf.header_le
    rw [← hflat] at hheader
    exact absurd hheader (by decide)
  obtain ⟨t, hrun, htacc, htidle, hresults⟩ := run_chunks chunks s hf ⟨hidle, hon, hpq, hcq, he⟩ hne hnil
    (by rw [hacc, hflat, List.nil_append]) hfit
  exact ⟨t, packetOf f, hf.header_le, ⟨hf.header_le, answers_parse (parse_validFrame hf)⟩, hrun, htacc, htidle, hresults⟩

/-- The requests that have no order with a parse of the consumer's own: another parse, a `PEEK` that does not fault, a `RESET`. -/
abbrev OrderFree (s : State) (i : Instr) : Prop := (∃ w, i = .parse w) ∨ (∃ n, i = .peek n ∧ n ≤ s.size) ∨ i = .reset

/-- The result of such a request. -/
def State.answer (s : State) : Instr → Result
  | .parse view => .decision (parse s.config view)
  | .peek n => .bytes (s.acc.take n)
  | _ => .ok

/-- The state after the consumer's request for `i` has been answered with `r`, and the content has become `acc`. -/
def State.afterAnswer (s : State) (i : Instr) (r : Result) (acc : Memory) (q : List Command) (rest : List Event) : State :=
  { s with
    events := rest
    active := .consumer
    consumerQueue := q
    acc := acc
    report := s.reportAfter i
    delivered := s.delivered ++ [{ agent := .consumer, result := r }] }

section
variable {s : State} {q : List Command} {rest : List Event} {i : Instr} {v : Bytes}

theorem step_parse (he : s.events = consumerTurn :: rest) (hidle : s.inFlight = .idle) (hq : s.consumerQueue = encode (.parse v) :: q) :
    step s = .next (s.afterAnswer (.parse v) (.decision (parse s.config v)) s.acc q rest) :=
  step_consumer he hidle hq rfl (by simp)

theorem step_orderFree (h : OrderFree s i) (he : s.events = consumerTurn :: rest) (hidle : s.inFlight = .idle)
    (hq : s.consumerQueue = encode i :: q) :
    step s = .next (s.afterAnswer i (s.answer i) (if i = .reset then [] else s.acc) q rest) := by
  obtain ⟨w, rfl⟩ | ⟨n, rfl, hn⟩ | rfl := h
  · exact step_parse he hidle hq
  · rw [step_consumer he hidle hq rfl (by simp)]
    exact answers_peek hn
  · rw [step_consumer he hidle hq rfl (by simp), exec_reset]
    simp only [State.clearBlock, State.deliver, State.afterAnswer, hidle, if_true, State.answer]

/-- What the consumer has learnt after a parse and such a request does not tell their order. -/
theorem reportAfter_of_noteParse {u : State} (h : OrderFree s i) (hfits : s.report.fits s.acc) (hacc : u.acc = s.acc)
    (hreport : u.report = s.report.noteParse v) : u.reportAfter i = (s.reportAfter i).noteParse v := by
  obtain ⟨w, rfl⟩ | ⟨n, rfl, -⟩ | rfl := h
  · exact (congrArg (Report.noteParse w) hreport).trans (Report.noteParse_comm hfits v w)
  · simp only [State.reportAfter, hreport, hacc, Report.noteParse_noteCopy]
  · simp only [State.reportAfter, hreport, Report.noteParse_noteRemoval]

end

/-- Settles O55: the one state both orders lead to, but for the results, has the request's content and report, the view noted as parsed. -/
theorem parsesHaveNoOrder : Obligations.ParsesHaveNoOrder := by
  rintro s v i q rest ⟨-, -, hfits⟩ he hidle hi
  have hparseFirst := run_trans
    (run_one (step_parse (s := { s with consumerQueue := encode (.parse v) :: encode i :: q }) he hidle rfl))
    (run_one (step_orderFree (i := i) hi rfl hidle rfl))
  have hparseLast := run_trans
    (run_one (step_orderFree (s := { s with consumerQueue := encode i :: encode (.parse v) :: q }) hi he hidle rfl))
    (run_one (step_parse rfl hidle rfl))
  refine ⟨{ s with
      events := rest
      active := .consumer
      consumerQueue := q
      acc := if i = .reset then [] else s.acc
      report := (s.reportAfter i).noteParse v },
    ⟨.consumer, .decision (parse s.config v)⟩, ⟨.consumer, s.answer i⟩, hparseFirst.trans ?_, hparseLast.trans ?_, answers_parse rfl,
    rfl, hidle, rfl, rfl, rfl⟩
  · rw [State.afterAnswer, reportAfter_of_noteParse (s := s) (v := v) hi hfits]
    · simp only [State.afterAnswer, List.append_assoc]
      rfl
    · rfl
    · rfl
  · simp only [State.afterAnswer, List.append_assoc]
    rfl

/-- Settles O56. -/
theorem parseAndFeedHaveNoOrder : Obligations.ParseAndFeedHaveNoOrder := by
  intro s v b pq cq rest hidle hon hpq hcq
  have hparseFirst := run_trans
    (run_one (step_parse (s := { s with events := consumerTurn :: producerTurn :: rest }) rfl hidle hcq))
    (run_one (step_feed rfl hon hpq))
  have hfeedFirst := run_trans
    (run_one (step_feed (s := { s with events := producerTurn :: consumerTurn :: rest }) rfl hon hpq))
    (run_one (step_parse rfl hidle hcq))
  refine ⟨{ s with
      events := rest
      producerQueue := pq
      consumerQueue := cq
      acc := s.feedAcc b
      report := s.report.noteParse v },
    ⟨.consumer, .decision (parse s.config v)⟩, ⟨.producer, s.feedResult b⟩, hparseFirst.trans ?_, hfeedFirst.trans ?_,
    answers_parse rfl, rfl, fun hfit => ⟨if_pos hfit, if_pos hfit⟩,
    fun hover => ⟨if_neg (Nat.not_le_of_lt hover), if_neg (Nat.not_le_of_lt hover)⟩⟩
  · simp only [State.afterAnswer, List.append_assoc]
    rfl
  · simp only [State.afterAnswer, List.append_assoc]
    rfl

section
variable {s : State} {n : Nat} {q : List Command} {rest : List Event}

/-- The parser's counts of what is at the front stay reported when a copy is taken, and when a view is parsed. -/
theorem Reported.afterT1 (h : Reported s n) : Reported (s.afterT1 q rest) n := by
  obtain ⟨v, hv, ⟨u, hu, hprefix⟩, hcount⟩ := h
  exact ⟨v, hv, ⟨u, List.mem_append_left [s.acc] hu, hprefix⟩, hcount⟩

theorem Reported.afterT2 {view : Bytes} (h : Reported s n) : Reported (s.afterT2 view rest) n := by
  obtain ⟨v, hv, hsnapshot, hcount⟩ := h
  exact ⟨v, mem_insertView.2 (.inr hv), hsnapshot, hcount⟩

/-- A consumer that stops and then consumes a reported count. -/
theorem run_cancel_consume (hinv : BlockInv s) (hrep : Reported s n) (he : s.events = .cancel :: consumerTurn :: rest)
    (hq : s.consumerQueue = encode (.consume n) :: q) :
    run 2 s = .next { s with
      events := rest
      active := .consumer
      consumerQueue := q
      acc := s.acc.drop n
      inFlight := .idle
      report := s.report.noteRemoval
      delivered := s.delivered ++ [{ agent := .consumer, result := .ok }] } := by
  have hcancel := cancellationLeavesBytes s _ he
  have hinv' := stepKeepsBlockInvariant s _ hinv hcancel
  have hconsume := reportedCountIsConsumed { s with events := consumerTurn :: rest, inFlight := .idle } n q rest rfl hq rfl
    (.inr ⟨hrep, hinv'⟩)
  exact run_trans (run_one hcancel) (run_one hconsume)

end

/-- Settles O57: neither a copy nor a parse ends what was reported, and the cancellation drops what is in flight. -/
theorem cancelledTryExtractLeavesReport : Obligations.CancelledTryExtractLeavesReport := by
  rintro s phases n q rest hinv hrep hidle (rfl | rfl) hq he
  · have hT1 := step_T1 he hidle hq
    have hinv1 := stepKeepsBlockInvariant s _ hinv hT1
    have hrun := run_trans (run_one hT1) (run_cancel_consume hinv1 hrep.afterT1 rfl rfl)
    exact ⟨_, hrun.trans (by rw [hidle]; rfl), rfl⟩
  · change s.events = consumerTurn :: consumerTurn :: .cancel :: consumerTurn :: rest at he
    have hT1 := step_T1 he hidle hq
    have hT2 := step_T2 (s := s.afterT1 (encode (.consume n) :: q) (consumerTurn :: .cancel :: consumerTurn :: rest)) rfl rfl
    have hinv2 := stepKeepsBlockInvariant _ _ (stepKeepsBlockInvariant s _ hinv hT1) hT2
    have hrun := run_trans (run_trans (run_one hT1) (run_one hT2)) (run_cancel_consume hinv2 hrep.afterT1.afterT2 rfl rfl)
    exact ⟨_, hrun.trans (by rw [hidle]; rfl), rfl⟩

end Sys2Proof.Machine
